-- ==== Sys2Proof/Word.lean ====
section
/-! DEFINITION. The words of the GF2N core and the names its commands use: the 32-bit command and register
word (R6, R80), the fields of an element (R20), the four element registers (R20, R84), the six relations of
CMP.cc (R86). -/

namespace Sys2Proof

/-- A command word and a host register (CMD_W = REG_W = 32, R6). -/
abbrev Word := BitVec 32

/-- A coefficient field: bit i is the coefficient of x^i (COEF_W = 8, R6, R20). -/
abbrev Coef := BitVec 8

/-- A modulus field (MOD_W = 9, R6, R20). -/
abbrev Modulus := BitVec 9

/-- A characteristic field (CHAR_W = 4, R6, R20). Its legal values are 0 to 8. -/
abbrev Charac := BitVec 4

/-- The element registers E0 to E3 (R20). None is hardwired (R27). -/
inductive ElemReg where
  | e0 | e1 | e2 | e3
  deriving DecidableEq, Repr

/-- Every element register, in order. -/
abbrev ElemReg.all : List ElemReg := [.e0, .e1, .e2, .e3]

/-- The relations a CMP.cc command can test, in the order of R86. -/
inductive Cond where
  | eq | ne | lt | gt | le | ge
  deriving DecidableEq, Repr

end Sys2Proof
end

