-- ==== Sys2Proof/Config.lean ====
section
/-! DEFINITION. What an implementation or a platform fixes, and the free values: constants with no body, of which no proof
can learn a value. -/

namespace Sys2Proof

/-- N_MAX, the largest field width (R6). -/
abbrev Config.nMax : Nat := 8

/-- The size of the register window in bytes (R50). -/
abbrev Config.windowBytes : Nat := 0x20

/-- BASE, the host address of the register window: an open parameter fixed by the platform (R50, D19; log 1). -/
opaque Config.base : Nat

/-- Free value: what the hidden multiplicand register holds after the k-th commit (R38, 93 I17; log 7). -/
opaque Config.freeMultiplicand (k : Nat) : BitVec 8

/-- Free value: what the hidden multiplier register holds after the k-th commit (R38, 93 I17; log 7). -/
opaque Config.freeMultiplier (k : Nat) : BitVec 8

/-- Free value: what the hidden product register holds after the k-th commit (R38, 93 I17; log 7). -/
opaque Config.freeProduct (k : Nat) : BitVec 8

/-- Free value: what the hidden iteration count holds after the k-th commit (R38, 93 I17; log 7). -/
opaque Config.freeIteration (k : Nat) : BitVec 4

/-- Free value: what the hidden candidate counter holds after the k-th commit (R38, 93 I17; log 7). -/
opaque Config.freeCandidate (k : Nat) : BitVec 9

end Sys2Proof
end

