-- ==== Sys2Proof/Syntax.lean ====
section
/-! DEFINITION. The commands of the GF2N core, one constructor for each row of spec/opcode_table.json. Operands are
already decoded: register indices are register names, immediates have the width of their fields (R84), so every
term of this type is one that a command word encodes. -/

namespace Sys2Proof

/-- One command (R85, R86). -/
inductive Instr where
  /-- LDE: construct a field element (R110). -/
  | lde (rd : ElemReg) (coef : Coef) (mod : Modulus) (char : Charac)
  /-- ADD: field addition (R121). -/
  | add (rd ra rb : ElemReg)
  /-- SUB: field subtraction (R122). -/
  | sub (rd ra rb : ElemReg)
  /-- MUL: field multiplication with reduction (R134). -/
  | mul (rd ra rb : ElemReg)
  /-- INV: multiplicative inverse (R171). -/
  | inv (rd ra : ElemReg)
  /-- CMP.EQ (R151). -/
  | cmpEq (ra rb : ElemReg)
  /-- CMP.NE (R152). -/
  | cmpNe (ra rb : ElemReg)
  /-- CMP.LT (R153). -/
  | cmpLt (ra rb : ElemReg)
  /-- CMP.GT (R154). -/
  | cmpGt (ra rb : ElemReg)
  /-- CMP.LE (R155). -/
  | cmpLe (ra rb : ElemReg)
  /-- CMP.GE (R156). -/
  | cmpGe (ra rb : ElemReg)
  deriving DecidableEq, Repr

end Sys2Proof
end

