-- ==== Sys2Proof/WellFormed.lean ====
section
/-! DEFINITION. Well-formed assembler lines (R90). An `Instr` carries its operands at their fields' widths, so it needs no
check; what can be ill-formed is the line a programmer writes, whose register numbers and immediates are numerals. The
assembler that turns a well-formed line into a command is `AsmLine.assemble` in Sys2Proof/Decode.lean. -/

namespace Sys2Proof

/-- One line of assembly, operands as the numerals written (R90's table of forms). -/
inductive AsmLine where
  /-- `LDE Ed, coef, mod, char` -/
  | lde (ed coef mod char : Nat)
  /-- `ADD Ed, Ea, Eb` -/
  | add (ed ea eb : Nat)
  /-- `SUB Ed, Ea, Eb` -/
  | sub (ed ea eb : Nat)
  /-- `MUL Ed, Ea, Eb` -/
  | mul (ed ea eb : Nat)
  /-- `INV Ed, Ea` -/
  | inv (ed ea : Nat)
  /-- `CMP.cc Ea, Eb` -/
  | cmp (cc : Cond) (ea eb : Nat)
  deriving DecidableEq, Repr

/-- Element registers are written E0 to E3 (R90). -/
def registerInRange (k : Nat) : Bool := decide (k ≤ 3)

/-- COEF immediates are 0 to 255 (R90). -/
def coefInRange (v : Nat) : Bool := decide (v ≤ 255)

/-- MOD immediates are 0 to 511 (R90). -/
def modInRange (v : Nat) : Bool := decide (v ≤ 511)

/-- CHAR immediates are 0 to 15: the assembler accepts 9 to 15, which raise an error only when executed (R90). -/
def charInRange (v : Nat) : Bool := decide (v ≤ 15)

/-- A line the assembler accepts: every register exists and every immediate fits its field (R90). -/
def AsmLine.wellFormed : AsmLine → Bool
  | .lde ed coef mod char => registerInRange ed && coefInRange coef && modInRange mod && charInRange char
  | .add ed ea eb => registerInRange ed && registerInRange ea && registerInRange eb
  | .sub ed ea eb => registerInRange ed && registerInRange ea && registerInRange eb
  | .mul ed ea eb => registerInRange ed && registerInRange ea && registerInRange eb
  | .inv ed ea => registerInRange ed && registerInRange ea
  | .cmp _ ea eb => registerInRange ea && registerInRange eb

end Sys2Proof
end

