-- ==== Sys2Proof/Decode.lean ====
section
/-! DEFINITION. Command words: the fields of the two formats (R81 to R84), the decoder (R88), the encoder (R82, R83, R90), the
match and mask of each row (R87), and the assembler (R90). -/

namespace Sys2Proof

/-- Why a word encodes no command: the three sub-causes of IllegalCommand (R88, R204). -/
inductive IllegalKind where
  /-- sub-cause 1: reserved opcode -/
  | reservedOp
  /-- sub-cause 2: reserved COND -/
  | reservedCond
  /-- sub-cause 3: a must-be-zero field is nonzero -/
  | mustBeZero
  deriving DecidableEq, Repr

/-! ## Fields -/

/-- The element register a 2-bit index names (R84). -/
def ElemReg.ofBits (b : BitVec 2) : ElemReg :=
  if b = 0 then .e0 else if b = 1 then .e1 else if b = 2 then .e2 else .e3

/-- The 2-bit index of an element register (R84). -/
def ElemReg.toBits : ElemReg → BitVec 2
  | .e0 => 0
  | .e1 => 1
  | .e2 => 2
  | .e3 => 3

/-- OP, bits 3:0 (R81). -/
def opField (w : Word) : BitVec 4 := w.extractLsb' 0 4

/-- RD, bits 5:4 (R82, R83). -/
def rdField (w : Word) : BitVec 2 := w.extractLsb' 4 2

/-- RA, bits 7:6 of format R (R82). -/
def raField (w : Word) : BitVec 2 := w.extractLsb' 6 2

/-- RB, bits 9:8 of format R (R82). -/
def rbField (w : Word) : BitVec 2 := w.extractLsb' 8 2

/-- COND, bits 12:10 of format R (R82). -/
def condField (w : Word) : BitVec 3 := w.extractLsb' 10 3

/-- RSV, bits 31:13 of format R (R82). -/
def rsvFieldR (w : Word) : BitVec 19 := w.extractLsb' 13 19

/-- CHAR, bits 9:6 of format L (R83). -/
def charField (w : Word) : Charac := w.extractLsb' 6 4

/-- COEF, bits 17:10 of format L (R83). -/
def coefField (w : Word) : Coef := w.extractLsb' 10 8

/-- MOD, bits 26:18 of format L (R83). -/
def modField (w : Word) : Modulus := w.extractLsb' 18 9

/-- RSV, bits 31:27 of format L (R83). -/
def rsvFieldL (w : Word) : BitVec 5 := w.extractLsb' 27 5

/-! ## Decoding -/

/-- R88, first check: OP is none of 0x1 to 0x6. -/
def opReserved (w : Word) : Bool :=
  !(opField w == 0x1 || opField w == 0x2 || opField w == 0x3 || opField w == 0x4 || opField w == 0x5
    || opField w == 0x6)

/-- R88, second check: a CMP word whose COND is 6 or 7. -/
def condReserved (w : Word) : Bool :=
  opField w == 0x6 && (condField w == 6 || condField w == 7)

/-- R88, last checks: a field that must be zero for the word's command is not (R87). -/
def mustBeZeroSet (w : Word) : Bool :=
  (opField w == 0x1 && rsvFieldL w != 0)
    || ((opField w == 0x2 || opField w == 0x3 || opField w == 0x4) && (rsvFieldR w != 0 || condField w != 0))
    || (opField w == 0x5 && (rsvFieldR w != 0 || condField w != 0 || rbField w != 0))
    || (opField w == 0x6 && (rsvFieldR w != 0 || rdField w != 0))

/-- The CMP command that a COND value below 6 selects (R86). -/
def compareCommand (cond : BitVec 3) (ra rb : ElemReg) : Instr :=
  if cond = 0 then .cmpEq ra rb
  else if cond = 1 then .cmpNe ra rb
  else if cond = 2 then .cmpLt ra rb
  else if cond = 3 then .cmpGt ra rb
  else if cond = 4 then .cmpLe ra rb
  else .cmpGe ra rb

/-- The command selected by OP, and COND, of a word that has passed every check of R88 (R85). -/
def selectCommand (w : Word) : Instr :=
  let rd := ElemReg.ofBits (rdField w)
  let ra := ElemReg.ofBits (raField w)
  let rb := ElemReg.ofBits (rbField w)
  if opField w = 0x1 then .lde rd (coefField w) (modField w) (charField w)
  else if opField w = 0x2 then .add rd ra rb
  else if opField w = 0x3 then .sub rd ra rb
  else if opField w = 0x4 then .mul rd ra rb
  else if opField w = 0x5 then .inv rd ra
  else compareCommand (condField w) ra rb

/-- R88: the checks in their order, then the command. Total: every word gives a command or the first failing check. -/
def decode (w : Word) : Except IllegalKind Instr :=
  if opReserved w then .error .reservedOp
  else if condReserved w then .error .reservedCond
  else if mustBeZeroSet w then .error .mustBeZero
  else .ok (selectCommand w)

/-- The command read from the low nbits bits of w, every bit above them zero. The one 32-bit word of a command is bits
31:0 of the opcode table's numbering. None where the decoder refuses the word. -/
def decodeTableWord (nbits w : Nat) : Option Instr :=
  match decode (BitVec.ofNat 32 (w % 2 ^ nbits)) with
  | .ok i => some i
  | .error _ => none

/-! ## Encoding -/

/-- Format R: `{RSV[18:0], COND[2:0], RB[1:0], RA[1:0], RD[1:0], OP[3:0]}` with RSV zero (R82). -/
def formatR (cond : BitVec 3) (rb ra rd : BitVec 2) (op : BitVec 4) : Word :=
  0#19 ++ cond ++ rb ++ ra ++ rd ++ op

/-- Format L: `{RSV[4:0], MOD[8:0], COEF[7:0], CHAR[3:0], RD[1:0], OP[3:0]}` with RSV zero and OP = 0x1 (R83). -/
def formatL (mod : Modulus) (coef : Coef) (char : Charac) (rd : BitVec 2) : Word :=
  0#5 ++ mod ++ coef ++ char ++ rd ++ 0x1#4

/-- The word of a command (R82, R83, R85, R86): every must-be-zero field is zero. -/
def encode : Instr → Word
  | .lde rd coef mod char => formatL mod coef char rd.toBits
  | .add rd ra rb => formatR 0 rb.toBits ra.toBits rd.toBits 0x2
  | .sub rd ra rb => formatR 0 rb.toBits ra.toBits rd.toBits 0x3
  | .mul rd ra rb => formatR 0 rb.toBits ra.toBits rd.toBits 0x4
  | .inv rd ra => formatR 0 0 ra.toBits rd.toBits 0x5
  | .cmpEq ra rb => formatR 0 rb.toBits ra.toBits 0 0x6
  | .cmpNe ra rb => formatR 1 rb.toBits ra.toBits 0 0x6
  | .cmpLt ra rb => formatR 2 rb.toBits ra.toBits 0 0x6
  | .cmpGt ra rb => formatR 3 rb.toBits ra.toBits 0 0x6
  | .cmpLe ra rb => formatR 4 rb.toBits ra.toBits 0 0x6
  | .cmpGe ra rb => formatR 5 rb.toBits ra.toBits 0 0x6

/-! ## The table of R87 -/

/-- The rows of the opcode table: a command without its operands. -/
inductive Command where
  | lde | add | sub | mul | inv | cmp (cc : Cond)
  deriving DecidableEq, Repr

/-- The row an instruction belongs to. -/
def Instr.row : Instr → Command
  | .lde _ _ _ _ => .lde
  | .add _ _ _ => .add
  | .sub _ _ _ => .sub
  | .mul _ _ _ => .mul
  | .inv _ _ => .inv
  | .cmpEq _ _ => .cmp .eq
  | .cmpNe _ _ => .cmp .ne
  | .cmpLt _ _ => .cmp .lt
  | .cmpGt _ _ => .cmp .gt
  | .cmpLe _ _ => .cmp .le
  | .cmpGe _ _ => .cmp .ge

/-- The COND value of a relation (R86). -/
def condCode : Cond → BitVec 3
  | .eq => 0
  | .ne => 1
  | .lt => 2
  | .gt => 3
  | .le => 4
  | .ge => 5

/-- The column "match" of R87. -/
def rowMatch : Command → Word
  | .lde => 0x00000001
  | .add => 0x00000002
  | .sub => 0x00000003
  | .mul => 0x00000004
  | .inv => 0x00000005
  | .cmp cc => 0x00000006 + ((condCode cc).setWidth 32 <<< 10)

/-- The column "mask" of R87. -/
def rowMask : Command → Word
  | .lde => 0xF800000F
  | .add => 0xFFFFFC0F
  | .sub => 0xFFFFFC0F
  | .mul => 0xFFFFFC0F
  | .inv => 0xFFFFFF0F
  | .cmp _ => 0xFFFFFC3F

/-! ## The assembler -/

/-- The CMP command of a relation (R86, R90). -/
def cmpInstr (cc : Cond) (ra rb : ElemReg) : Instr :=
  match cc with
  | .eq => .cmpEq ra rb
  | .ne => .cmpNe ra rb
  | .lt => .cmpLt ra rb
  | .gt => .cmpGt ra rb
  | .le => .cmpLe ra rb
  | .ge => .cmpGe ra rb

/-- The element register a numeral 0 to 3 names. -/
def ElemReg.ofNumeral (k : Nat) : ElemReg := ElemReg.ofBits (BitVec.ofNat 2 k)

/-- The command of a line whose operands are all in range (R90). -/
def AsmLine.command : AsmLine → Instr
  | .lde ed coef mod char =>
      .lde (.ofNumeral ed) (BitVec.ofNat 8 coef) (BitVec.ofNat 9 mod) (BitVec.ofNat 4 char)
  | .add ed ea eb => .add (.ofNumeral ed) (.ofNumeral ea) (.ofNumeral eb)
  | .sub ed ea eb => .sub (.ofNumeral ed) (.ofNumeral ea) (.ofNumeral eb)
  | .mul ed ea eb => .mul (.ofNumeral ed) (.ofNumeral ea) (.ofNumeral eb)
  | .inv ed ea => .inv (.ofNumeral ed) (.ofNumeral ea)
  | .cmp cc ea eb => cmpInstr cc (.ofNumeral ea) (.ofNumeral eb)

/-- R90: the assembler gives a well-formed line its command's word and refuses every other line. -/
def AsmLine.assemble (a : AsmLine) : Option Word :=
  if a.wellFormed then some (encode a.command) else none

end Sys2Proof
end

