-- ==== Sys2Proof/Machine/State.lean ====
section
/-! DEFINITION. The state of the GF2N core and of the two agents around it, as plain data: every piece of state of R20, R29,
R36 and R38, what the host has read, and the order in which the agents act. Also the reasons a step can stop. -/

namespace Sys2Proof.Machine

open Sys2Proof

/-- One element register: the record of R20. -/
structure Element where
  coef : Coef
  mod : Modulus
  char : Charac
  /-- 1 when the register has been written since reset (R25) -/
  valid : Bool
  deriving DecidableEq, Repr

/-- The element register file E0 to E3 (R20). -/
structure ElemFile where
  e0 : Element
  e1 : Element
  e2 : Element
  e3 : Element
  deriving DecidableEq, Repr

/-- The stored fields of STATUS (R29). STATUS[15:12] is no storage: it mirrors the VALID bits (R35). -/
structure Status where
  busy : Bool
  err : Bool
  cmpf : Bool
  drop : Bool
  errcode : BitVec 4
  errsub : BitVec 4
  deriving DecidableEq, Repr

/-- The sequencer's hidden working registers (R38). -/
structure Work where
  multiplicand : BitVec 8
  multiplier : BitVec 8
  product : BitVec 8
  iteration : BitVec 4
  candidate : BitVec 9
  deriving DecidableEq, Repr

/-- A host access to an address, n bytes wide: `MemRead(addr, n)` and `MemWrite(addr, n, v)` (R8). -/
inductive Access where
  | memRead (addr n : Nat)
  | memWrite (addr n : Nat) (v : Word)
  deriving DecidableEq, Repr

/-- One turn: who acts next (R3, R60, R240; log 2). -/
inductive Turn where
  /-- the sequencer may take its step (R57) -/
  | sequencer
  /-- the host makes an access -/
  | host (a : Access)
  /-- the reset input (R240) -/
  | reset
  deriving DecidableEq, Repr

/-- The causes of an error, one for each row of R201 but "none". -/
inductive ErrorCause where
  | charRange | modMismatch | charMismatch | modZero | charZero
  | noInverse
  | reservedOp | reservedCond | mustBeZero
  | uninitA | uninitB
  deriving DecidableEq, Repr

/-- Why the machine stops: the host agent makes an access for which the spec gives it no step (R53). -/
inductive Fault where
  /-- Raised by the host's turn: an access inside the window whose width is not 32 bits (R53). Safe: nothing is proved about
  a run that makes it (log 4). -/
  | accessWidth
  /-- Raised by the host's turn: a 32-bit access inside the window at an offset that is not a multiple of 4 (R53). Safe:
  nothing is proved about a run that makes it (log 4). -/
  | accessAlignment
  deriving DecidableEq, Repr

/-- Why the model gives no meaning. -/
inductive Refusal where
  /-- Raised by `exec` for an instruction with no meaning yet, under its mnemonic. Safe. -/
  | notModelled (mnemonic : String)
  /-- Raised by the host's turn: an access outside the window, where the addresses belong to the platform (R50, R52). Safe:
  the spec does not say what such an access does (log 5). -/
  | platformAddress
  deriving DecidableEq, Repr

/-- The whole state. The first five fields are the block's, the last three the model's own (INVENTORY, State). -/
structure State where
  /-- E0 to E3 (R20) -/
  elems : ElemFile
  /-- STATUS (R29) -/
  status : Status
  /-- ERRCMD (R36) -/
  errcmd : Word
  /-- PENDING: the accepted command word awaiting commit, or empty (R38) -/
  pending : Option Word
  /-- the hidden working registers (R38); free values after every commit (log 7) -/
  work : Work
  /-- what the host's reads returned, newest first (log 6) -/
  returned : List Word
  /-- the turns still to come, first one first; when empty, the sequencer has the turn (log 2, log 3) -/
  turns : List Turn
  /-- how many free values of the working registers have been used (log 7) -/
  fresh : Nat
  deriving DecidableEq, Repr

/-- An element register after reset (R41). -/
def Element.reset : Element := { coef := 0x00, mod := 0x000, char := 0, valid := false }

/-- The register file after reset (R41). -/
def ElemFile.reset : ElemFile :=
  { e0 := Element.reset, e1 := Element.reset, e2 := Element.reset, e3 := Element.reset }

/-- STATUS after reset (R41). -/
def Status.reset : Status :=
  { busy := false, err := false, cmpf := false, drop := false, errcode := 0, errsub := 0 }

/-- The working registers after reset (R41). -/
def Work.reset : Work :=
  { multiplicand := 0, multiplier := 0, product := 0, iteration := 0, candidate := 0 }

/-- The machine right after reset (R41, R241). The model's own three fields start empty (log 11). -/
def State.reset : State :=
  { elems := ElemFile.reset
    status := Status.reset
    errcmd := 0x00000000
    pending := none
    work := Work.reset
    returned := []
    turns := []
    fresh := 0 }

end Sys2Proof.Machine
end

