-- ==== Sys2Proof/Machine/Flags.lean ====
section
/-! DEFINITION. Every status bit a command computes: the error codes (R201), the relations behind CMPF (R150 to R156), and the
32-bit words in which the host sees STATUS (R29) and an element register (R37). -/

namespace Sys2Proof.Machine

open Sys2Proof

/-- ERRCODE of a cause (R201). -/
def ErrorCause.code : ErrorCause → BitVec 4
  | .charRange => 1
  | .modMismatch => 1
  | .charMismatch => 1
  | .modZero => 1
  | .charZero => 1
  | .noInverse => 2
  | .reservedOp => 3
  | .reservedCond => 3
  | .mustBeZero => 3
  | .uninitA => 4
  | .uninitB => 4

/-- ERRSUB of a cause (R201). -/
def ErrorCause.sub : ErrorCause → BitVec 4
  | .charRange => 1
  | .modMismatch => 2
  | .charMismatch => 3
  | .modZero => 4
  | .charZero => 5
  | .noInverse => 0
  | .reservedOp => 1
  | .reservedCond => 2
  | .mustBeZero => 3
  | .uninitA => 1
  | .uninitB => 2

/-- Every cause of an error (R201). -/
def ErrorCause.all : List ErrorCause :=
  [.charRange, .modMismatch, .charMismatch, .modZero, .charZero, .noInverse, .reservedOp, .reservedCond,
    .mustBeZero, .uninitA, .uninitB]

/-- The cause a decoding error is recorded as (R88, R204). -/
def illegalCause : IllegalKind → ErrorCause
  | .reservedOp => .reservedOp
  | .reservedCond => .reservedCond
  | .mustBeZero => .mustBeZero

/-- Whether a relation holds between two COEF fields, as unsigned 8-bit integers (R150 to R156). -/
def relationHolds : Cond → Coef → Coef → Bool
  | .eq, x, y => x == y
  | .ne, x, y => x != y
  | .lt, x, y => x.ult y
  | .gt, x, y => y.ult x
  | .le, x, y => x.ule y
  | .ge, x, y => y.ule x

/-- STATUS[15:12]: bit 12+i is E[i].VALID (R35). -/
def ElemFile.validBits (f : ElemFile) : BitVec 4 :=
  BitVec.ofBool f.e3.valid ++ BitVec.ofBool f.e2.valid ++ BitVec.ofBool f.e1.valid ++ BitVec.ofBool f.e0.valid

/-- STATUS as the host reads it (R29). -/
def statusWord (st : Status) (f : ElemFile) : Word :=
  0#16 ++ f.validBits ++ st.errsub ++ st.errcode ++ BitVec.ofBool st.drop ++ BitVec.ofBool st.cmpf
    ++ BitVec.ofBool st.err ++ BitVec.ofBool st.busy

/-- ELEMi as the host reads it: `{E[i].VALID, 0b000000, E[i].MOD, 0b0000, E[i].CHAR, E[i].COEF}` (R37). -/
def Element.view (e : Element) : Word :=
  BitVec.ofBool e.valid ++ 0#6 ++ e.mod ++ 0#4 ++ e.char ++ e.coef

end Sys2Proof.Machine
end

