-- ==== Sys2Proof/Machine/Ops.lean ====
section
/-! DEFINITION. The named operations over the state: the element registers (R20), the error commit (R207), the end of a commit
(R57), the acceptance of a command (R56), the register window (R51), reset (R240), and whose turn it is. -/

namespace Sys2Proof.Machine

open Sys2Proof

/-- The three outcomes, for this machine. -/
abbrev Result := Host.Outcome State Fault Refusal

/-! ## Element registers -/

/-- The register of the file under a name. -/
def ElemFile.get (f : ElemFile) : ElemReg → Element
  | .e0 => f.e0
  | .e1 => f.e1
  | .e2 => f.e2
  | .e3 => f.e3

/-- The file with one register replaced whole. -/
def ElemFile.set (f : ElemFile) (r : ElemReg) (e : Element) : ElemFile :=
  match r with
  | .e0 => { f with e0 := e }
  | .e1 => { f with e1 := e }
  | .e2 => { f with e2 := e }
  | .e3 => { f with e3 := e }

/-- `E[i]` (R8). -/
def State.elem (s : State) (r : ElemReg) : Element := s.elems.get r

/-- `E[i] <- v`: the whole record is replaced (R8, R24, R111). -/
def State.setElem (s : State) (r : ElemReg) (e : Element) : State := { s with elems := s.elems.set r e }

/-- `S.CMPF <- b` (R32). -/
def State.setCmpf (s : State) (b : Bool) : State := { s with status := { s.status with cmpf := b } }

/-! ## Committing -/

/-- Taking an error, the one operation for all of them: ERR, ERRCODE, ERRSUB and ERRCMD are written and nothing else (R207).
There is no vector, no saved program counter and no mode, and only reset returns from it (R209). -/
def State.commitError (s : State) (w : Word) (c : ErrorCause) : State :=
  { s with
    status := { s.status with err := true, errcode := c.code, errsub := c.sub }
    errcmd := w }

/-- The commit of a command: the writes its rule lists, or the error it raised (R57, R207). -/
def commit (s : State) (w : Word) (r : Except ErrorCause State) : Result :=
  match r with
  | .ok t => .next t
  | .error c => .next (s.commitError w c)

/-- The values the hidden working registers are left with, which nothing constrains (R38, 93 I17; log 7). -/
def freeWork (k : Nat) : Work :=
  { multiplicand := Config.freeMultiplicand k
    multiplier := Config.freeMultiplier k
    product := Config.freeProduct k
    iteration := Config.freeIteration k
    candidate := Config.freeCandidate k }

/-- The end of every commit: `PENDING <- empty; S.BUSY <- 0` (R57), with the working registers left at free values. -/
def State.retire (s : State) : State :=
  { s with
    pending := none
    status := { s.status with busy := false }
    work := freeWork s.fresh
    fresh := s.fresh + 1 }

/-- An outcome whose next state is retired. -/
def retireNext : Result → Result
  | .next s => .next s.retire
  | .fault f => .fault f
  | .refused r => .refused r

/-! ## The register window -/

/-- The registers of the window (R51). -/
inductive WindowReg where
  | cmd | status | errcmd | reserved | elem (r : ElemReg)
  deriving DecidableEq, Repr

/-- The register at an offset of the window that is a multiple of 4 (R51). -/
def windowReg (off : Nat) : WindowReg :=
  match off with
  | 0x00 => .cmd
  | 0x04 => .status
  | 0x08 => .errcmd
  | 0x10 => .elem .e0
  | 0x14 => .elem .e1
  | 0x18 => .elem .e2
  | 0x1C => .elem .e3
  | _ => .reserved

/-- The value of a register of the window (R28, R29, R36, R37, R55). -/
def State.readReg (s : State) : WindowReg → Word
  | .cmd => 0
  | .status => statusWord s.status s.elems
  | .errcmd => s.errcmd
  | .reserved => 0
  | .elem r => (s.elem r).view

/-- `RegRead(off)` (R8, R55). -/
def State.regRead (s : State) (off : Nat) : Word := s.readReg (windowReg off)

/-- The byte a platform bridge would put at BASE + off: byte k of a register's word sits at its address + k, little-endian
(R54). The block admits no access narrower than a word, so no rule reads this. -/
def State.laneByte (s : State) (off : Nat) : BitVec 8 :=
  (s.regRead (off - off % 4)).extractLsb' (8 * (off % 4)) 8

/-- A word offered as a command: accepted, or dropped while BUSY = 1 or ERR = 1 (R56). -/
def State.offerCommand (s : State) (w : Word) : State :=
  if s.status.busy || s.status.err then { s with status := { s.status with drop := true } }
  else { s with pending := some w, status := { s.status with busy := true } }

/-- `RegWrite(off, v)`: a write to CMD offers a command, every other write is ignored (R55, R56). -/
def State.regWrite (s : State) (off : Nat) (v : Word) : State :=
  match windowReg off with
  | .cmd => s.offerCommand v
  | .status => s
  | .errcmd => s
  | .reserved => s
  | .elem _ => s

/-- The host is given a value it read (R55; log 6). -/
def State.giveHost (s : State) (v : Word) : State := { s with returned := v :: s.returned }

/-- The offset of an address inside the window, none outside it (R50, R52; log 1). -/
def windowOffset (addr : Nat) : Option Nat :=
  if Config.base ≤ addr ∧ addr < Config.base + Config.windowBytes then some (addr - Config.base) else none

/-! ## Reset and turns -/

/-- Reset: every piece of the block's state takes its reset value, from any state; a pending command is abandoned (R240, R41).
What the host has read, the turns to come and the count of free values are not the block's (log 8). -/
def State.resetBlock (s : State) : State :=
  { State.reset with returned := s.returned, turns := s.turns, fresh := s.fresh }

/-- Whose turn it is. With no turn listed it is the sequencer's, whose step is weakly fair (R250; log 3). -/
def State.nextTurn (s : State) : Turn :=
  match s.turns with
  | [] => .sequencer
  | t :: _ => t

/-- The state in which the turn that comes next has been taken up. -/
def State.popTurn (s : State) : State := { s with turns := s.turns.tail }

end Sys2Proof.Machine
end

