-- ==== Sys2Proof/Machine/Operands.lean ====
section
/-! DEFINITION. The operand forms: an element register read as first or second source, with its VALID check (R25, R205), a
precondition check that raises an error, and which registers each command reads and writes (R26). -/

namespace Sys2Proof.Machine

open Sys2Proof

/-- The first source E[ra]; reading it while not valid raises UninitialisedOperand sub 1 (R205). -/
def State.operandA (s : State) (ra : ElemReg) : Except ErrorCause Element :=
  if (s.elem ra).valid then .ok (s.elem ra) else .error .uninitA

/-- The second source E[rb]; reading it while not valid raises UninitialisedOperand sub 2 (R205). -/
def State.operandB (s : State) (rb : ElemReg) : Except ErrorCause Element :=
  if (s.elem rb).valid then .ok (s.elem rb) else .error .uninitB

/-- A precondition of a command: `raise Error` under its cause when it does not hold (R8). -/
def require (holds : Bool) (c : ErrorCause) : Except ErrorCause Unit :=
  if holds then .ok () else .error c

/-- The register a command reads as its first source (R26). -/
def firstSource : Instr → Option ElemReg
  | .lde _ _ _ _ => none
  | .add _ ra _ => some ra
  | .sub _ ra _ => some ra
  | .mul _ ra _ => some ra
  | .inv _ ra => some ra
  | .cmpEq ra _ => some ra
  | .cmpNe ra _ => some ra
  | .cmpLt ra _ => some ra
  | .cmpGt ra _ => some ra
  | .cmpLe ra _ => some ra
  | .cmpGe ra _ => some ra

/-- The register a command reads as its second source (R26). -/
def secondSource : Instr → Option ElemReg
  | .lde _ _ _ _ => none
  | .add _ _ rb => some rb
  | .sub _ _ rb => some rb
  | .mul _ _ rb => some rb
  | .inv _ _ => none
  | .cmpEq _ rb => some rb
  | .cmpNe _ rb => some rb
  | .cmpLt _ rb => some rb
  | .cmpGt _ rb => some rb
  | .cmpLe _ rb => some rb
  | .cmpGe _ rb => some rb

/-- The element register a command writes; none for CMP.cc, which writes CMPF (R26). -/
def destination : Instr → Option ElemReg
  | .lde rd _ _ _ => some rd
  | .add rd _ _ => some rd
  | .sub rd _ _ => some rd
  | .mul rd _ _ => some rd
  | .inv rd _ => some rd
  | .cmpEq _ _ => none
  | .cmpNe _ _ => none
  | .cmpLt _ _ => none
  | .cmpGt _ _ => none
  | .cmpLe _ _ => none
  | .cmpGe _ _ => none

end Sys2Proof.Machine
end

