-- ==== Sys2Proof/Machine/AddSub.lean ====
section
/-! DEFINITION. ADD and SUB, the field-element adder (41_addsub.md). -/

namespace Sys2Proof.Machine

open Sys2Proof

/-- The adder datapath: an XOR of the full COEF fields, MOD and CHAR of the first operand (R120). -/
def xorAdd (a b : Element) : Element :=
  { coef := a.coef ^^^ b.coef, mod := a.mod, char := a.char, valid := true }

/-- What ADD and SUB share: the two operand reads, then the one datapath (R120, R121, R122). -/
def addResult (rd ra rb : ElemReg) (s : State) : Except ErrorCause State := do
  let a ← s.operandA ra
  let b ← s.operandB rb
  return s.setElem rd (xorAdd a b)

/-- ADD (R121). -/
def execAdd (rd ra rb : ElemReg) (s : State) : Result :=
  commit s (encode (.add rd ra rb)) (addResult rd ra rb s)

/-- SUB (R122): the same datapath under its own opcode. -/
def execSub (rd ra rb : ElemReg) (s : State) : Result :=
  commit s (encode (.sub rd ra rb)) (addResult rd ra rb s)

end Sys2Proof.Machine
end

