-- ==== Sys2Proof/Machine/Compare.lean ====
section
/-! DEFINITION. CMP.EQ, CMP.NE, CMP.LT, CMP.GT, CMP.LE, CMP.GE (43_compare.md). -/

namespace Sys2Proof.Machine

open Sys2Proof

/-- The common datapath: both operand reads, then CMPF from the raw COEF fields (R150, R157). -/
def compareResult (cc : Cond) (ra rb : ElemReg) (s : State) : Except ErrorCause State := do
  let a ← s.operandA ra
  let b ← s.operandB rb
  return s.setCmpf (relationHolds cc a.coef b.coef)

/-- CMP.EQ (R151). -/
def execCmpEq (ra rb : ElemReg) (s : State) : Result :=
  commit s (encode (.cmpEq ra rb)) (compareResult .eq ra rb s)

/-- CMP.NE (R152). -/
def execCmpNe (ra rb : ElemReg) (s : State) : Result :=
  commit s (encode (.cmpNe ra rb)) (compareResult .ne ra rb s)

/-- CMP.LT (R153). -/
def execCmpLt (ra rb : ElemReg) (s : State) : Result :=
  commit s (encode (.cmpLt ra rb)) (compareResult .lt ra rb s)

/-- CMP.GT (R154). -/
def execCmpGt (ra rb : ElemReg) (s : State) : Result :=
  commit s (encode (.cmpGt ra rb)) (compareResult .gt ra rb s)

/-- CMP.LE (R155). -/
def execCmpLe (ra rb : ElemReg) (s : State) : Result :=
  commit s (encode (.cmpLe ra rb)) (compareResult .le ra rb s)

/-- CMP.GE (R156). -/
def execCmpGe (ra rb : ElemReg) (s : State) : Result :=
  commit s (encode (.cmpGe ra rb)) (compareResult .ge ra rb s)

end Sys2Proof.Machine
end

