-- ==== Sys2Proof/Machine/Construct.lean ====
section
/-! DEFINITION. LDE, the construction of a field element (40_construct.md). -/

namespace Sys2Proof.Machine

open Sys2Proof

/-- LDE (R110): only CHAR is checked (R112); the whole record is replaced (R111). -/
def execLde (rd : ElemReg) (coef : Coef) (mod : Modulus) (char : Charac) (s : State) : Result :=
  commit s (encode (.lde rd coef mod char)) do
    require (decide (char.toNat ≤ Config.nMax)) .charRange
    return s.setElem rd { coef := coef, mod := mod, char := char, valid := true }

end Sys2Proof.Machine
end

