-- ==== Sys2Proof/Machine/Multiply.lean ====
section
/-! DEFINITION. MUL, the polynomial multiplier and reducer (42_multiply.md). The loop runs over the working registers of R38;
they start from the operands, whatever the state's hidden registers held. -/

namespace Sys2Proof.Machine

open Sys2Proof

/-- `mask(n) = 2^n - 1` at a width of w bits (R7). -/
def mask (w n : Nat) : BitVec w := BitVec.ofNat w (2 ^ n - 1)

/-- Steps 3c to 3e: shift in 9 bits, clear bit n, and XOR the low n bits of the modulus if bit n-1 was set (R133). -/
def shiftReduce (mod : Modulus) (n : Nat) (m : BitVec 8) : BitVec 8 :=
  let carry := m.getLsbD (n - 1)
  let shifted := ((m.setWidth 9 <<< 1) &&& mask 9 n).setWidth 8
  if carry then shifted ^^^ (mod &&& mask 9 n).setWidth 8 else shifted

/-- Step 2: the working registers at the start, both operands masked to n bits (R130, R131). -/
def mulStart (a b : Coef) (n : Nat) : Work :=
  { multiplicand := a &&& mask 8 n
    multiplier := b &&& mask 8 n
    product := 0
    iteration := 0
    candidate := 0 }

/-- Steps 3a to 3e: one iteration (R130). -/
def mulIteration (mod : Modulus) (n : Nat) (k : Work) : Work :=
  { multiplicand := shiftReduce mod n k.multiplicand
    multiplier := k.multiplier >>> 1
    product := if k.multiplier.getLsbD 0 then k.product ^^^ k.multiplicand else k.product
    iteration := k.iteration + 1
    candidate := k.candidate }

/-- Step 3: at most `fuel` iterations, left as soon as either operand is 0 at the top of one (R130, R132). -/
def mulLoop (mod : Modulus) (n : Nat) : Nat → Work → Work
  | 0, k => k
  | fuel + 1, k =>
    if k.multiplicand = 0 ∨ k.multiplier = 0 then k
    else mulLoop mod n fuel (mulIteration mod n k)

/-- `gfmul(a, b, mod, n)` (R130). -/
def gfmul (a b : Coef) (mod : Modulus) (n : Nat) : Coef :=
  (mulLoop mod n n (mulStart a b n)).product

/-- MUL (R134): the checks in the order of R206, then the product under the operands' MOD and CHAR. -/
def execMul (rd ra rb : ElemReg) (s : State) : Result :=
  commit s (encode (.mul rd ra rb)) do
    let a ← s.operandA ra
    let b ← s.operandB rb
    require (a.mod == b.mod) .modMismatch
    require (a.mod != 0) .modZero
    require (a.char == b.char) .charMismatch
    require (a.char != 0) .charZero
    return s.setElem rd
      { coef := gfmul a.coef b.coef a.mod a.char.toNat, mod := a.mod, char := a.char, valid := true }

end Sys2Proof.Machine
end

