-- ==== Sys2Proof/Machine/Inverse.lean ====
section
/-! DEFINITION. INV, the modular-inverse search engine (44_inverse.md). -/

namespace Sys2Proof.Machine

open Sys2Proof

/-- The search from the candidate counter c on, `left` candidates still to try: the first whose product is 1 (R170). -/
def searchFrom (p : Coef) (mod : Modulus) (n : Nat) : Nat → BitVec 9 → Option Coef
  | 0, _ => none
  | left + 1, c =>
    if gfmul p (c.setWidth 8) mod n = 1 then some (c.setWidth 8)
    else searchFrom p mod n left (c + 1)

/-- `inv_search(p, mod, n)`: candidates 1 to 2^n - 1 in ascending order; none is NotFound (R170). -/
def invSearch (p : Coef) (mod : Modulus) (n : Nat) : Option Coef :=
  searchFrom p mod n (2 ^ n - 1) 1

/-- The outcome of a search as a command sees it: NotFound raises NoInverseExists (R171, R203). -/
def foundOr (r : Option Coef) : Except ErrorCause Coef :=
  match r with
  | some c => .ok c
  | none => .error .noInverse

/-- INV (R171): MOD and CHAR are checked before the search; the result is the candidate itself. -/
def execInv (rd ra : ElemReg) (s : State) : Result :=
  commit s (encode (.inv rd ra)) do
    let p ← s.operandA ra
    require (p.mod != 0) .modZero
    require (p.char != 0) .charZero
    let c ← foundOr (invSearch p.coef p.mod p.char.toNat)
    return s.setElem rd { coef := c, mod := p.mod, char := p.char, valid := true }

end Sys2Proof.Machine
end

