-- ==== Sys2Proof/Machine/Dispatch.lean ====
section
/-! DEFINITION. The meaning of every command, one arm each: `execute(w)` of R57 for a word that decodes. -/

namespace Sys2Proof.Machine

open Sys2Proof

def exec (i : Instr) (s : State) : Host.Outcome State Fault Refusal :=
  match i with
  | .lde rd coef mod char => Sys2Proof.Machine.execLde rd coef mod char s
  | .add rd ra rb => Sys2Proof.Machine.execAdd rd ra rb s
  | .sub rd ra rb => Sys2Proof.Machine.execSub rd ra rb s
  | .mul rd ra rb => Sys2Proof.Machine.execMul rd ra rb s
  | .inv rd ra => Sys2Proof.Machine.execInv rd ra s
  | .cmpEq ra rb => Sys2Proof.Machine.execCmpEq ra rb s
  | .cmpNe ra rb => Sys2Proof.Machine.execCmpNe ra rb s
  | .cmpLt ra rb => Sys2Proof.Machine.execCmpLt ra rb s
  | .cmpGt ra rb => Sys2Proof.Machine.execCmpGt ra rb s
  | .cmpLe ra rb => Sys2Proof.Machine.execCmpLe ra rb s
  | .cmpGe ra rb => Sys2Proof.Machine.execCmpGe ra rb s

end Sys2Proof.Machine
end

