-- ==== Sys2Proof/Machine/Agents.lean ====
section
/-! DEFINITION. What each agent does in its turn: the sequencer (R57), the host (R53, R55, R56), the reset input (R240). -/

namespace Sys2Proof.Machine

open Sys2Proof

/-- The sequencer executes a word and commits: decode first, every decoding error an IllegalCommand (R57, R88, R204). -/
def executeWord (w : Word) (s : State) : Result :=
  match decode w with
  | .error k => retireNext (.next (s.commitError w (illegalCause k)))
  | .ok i => retireNext (exec i s)

/-- The sequencer's turn: with PENDING empty it is idle and all state survives (R57, R218). -/
def sequencerTurn (s : State) : Result :=
  match s.pending with
  | none => .next s
  | some w => executeWord w s

/-- The address and the width in bytes of an access. -/
def Access.place : Access → Nat × Nat
  | .memRead addr n => (addr, n)
  | .memWrite addr n _ => (addr, n)

/-- An admitted access at an offset: a read gives the host the register's value and changes nothing else; a write is
`RegWrite` (R55, R56). -/
def State.access (s : State) (off : Nat) : Access → State
  | .memRead _ _ => s.giveHost (s.regRead off)
  | .memWrite _ _ v => s.regWrite off v

/-- The host's turn: only 32-bit accesses at offsets that are multiples of 4 are admitted (R53; log 4, log 5). -/
def hostTurn (a : Access) (s : State) : Result :=
  match windowOffset a.place.1 with
  | none => .refused .platformAddress
  | some off =>
    if a.place.2 ≠ 4 then .fault .accessWidth
    else if off % 4 ≠ 0 then .fault .accessAlignment
    else .next (s.access off a)

/-- One turn of the agent it belongs to. -/
def runTurn (t : Turn) (s : State) : Result :=
  match t with
  | .sequencer => sequencerTurn s
  | .host a => hostTurn a s
  | .reset => .next s.resetBlock

/-- A command word held in PENDING, BUSY set, and the sequencer's turn next (R56, R57; log 9). -/
def State.withPending (s : State) (w : Word) : State :=
  { s with
    pending := some w
    status := { s.status with busy := true }
    turns := .sequencer :: s.turns }

end Sys2Proof.Machine
end

