-- ==== Sys2Proof/Machine/Step.lean ====
section
/-! DEFINITION. One step of the machine: the agent whose turn it is acts (R3, R60). -/

namespace Sys2Proof.Machine

open Sys2Proof

/-- One turn is taken up and run. -/
def step (s : State) : Host.Outcome State Fault Refusal :=
  runTurn s.nextTurn s.popTurn

/-- The state whose very next step executes the word w: it is pending and the sequencer has the turn. Bits at or above nbits
are zero (log 9). -/
def State.withFetchWord (s : State) (nbits w : Nat) : State :=
  s.withPending (BitVec.ofNat 32 (w % 2 ^ nbits))

end Sys2Proof.Machine
end

