-- ==== Sys2Proof/Machine/Poly.lean ====
section
/-! DEFINITION. The polynomial helpers of R9, on natural numbers read as bitmasks (bit i is the coefficient of x^i). No command
is defined through them; they only state consequences of the multiplier's rules. -/

namespace Sys2Proof.Machine

/-- `clmul(a, b)`: the XOR over every i with `b[i] = 1` of `a << i`, for a b of at most `bits` bits (R9). -/
def clmulBits (a b : Nat) : Nat → Nat
  | 0 => 0
  | bits + 1 => clmulBits a b bits ^^^ (if b.testBit bits then a <<< bits else 0)

/-- `clmul(a, b)` of two 8-bit values (R9). -/
def clmul (a b : Nat) : Nat := clmulBits a b 8

/-- `deg(v)`: the index of the highest set bit (R9). -/
def deg (v : Nat) : Nat := Nat.log2 v

/-- The division loop of `pmod`, at most `fuel` subtractions (R9). -/
def pmodLoop (m : Nat) : Nat → Nat → Nat
  | 0, x => x
  | fuel + 1, x =>
    if x ≠ 0 ∧ deg m ≤ deg x then pmodLoop m fuel (x ^^^ (m <<< (deg x - deg m))) else x

/-- `pmod(x, m)`: the remainder of x divided by m over GF(2) (R9). Each subtraction lowers the degree, so deg(x) + 1 of them
are enough. -/
def pmod (x m : Nat) : Nat := pmodLoop m (deg x + 1) x

end Sys2Proof.Machine
end

