-- ==== Sys2Proof/Safety.lean ====
section
/-! DEFINITION. What counts as a safe run: the coherence of the state that every step keeps (the relations between fields that
the spec promises), the host accesses the block admits, and the end of a run. -/

namespace Sys2Proof.Machine

open Sys2Proof

/-- BUSY is 1 exactly while a command is accepted and not yet committed (R30). -/
abbrev BusyIsPending (s : State) : Prop := s.status.busy = s.pending.isSome

/-- While ERR = 1 no command is accepted and none executes (R31, R209). -/
abbrev HaltedHasNoCommand (s : State) : Prop := s.status.err = true → s.pending = none

/-- ERRCODE, ERRSUB and ERRCMD read 0 while ERR = 0 (R34, R36). -/
abbrev NoErrorNoRecord (s : State) : Prop :=
  s.status.err = false → s.status.errcode = 0 ∧ s.status.errsub = 0 ∧ s.errcmd = 0

/-- A recorded error is one of the rows of R201. -/
abbrev RecordIsListed (s : State) : Prop :=
  s.status.err = true → ∃ c ∈ ErrorCause.all, s.status.errcode = c.code ∧ s.status.errsub = c.sub

/-- In every element register with VALID = 1, CHAR is in 0..8 (R23). -/
abbrev ValidCharLegal (s : State) : Prop :=
  ∀ r ∈ ElemReg.all, (s.elem r).valid = true → (s.elem r).char.toNat ≤ Config.nMax

/-- An element register with VALID = 0 holds its reset value (R113). -/
abbrev InvalidHoldsReset (s : State) : Prop :=
  ∀ r ∈ ElemReg.all, (s.elem r).valid = false → s.elem r = Element.reset

/-- The states the spec's promises describe. -/
abbrev State.Coherent (s : State) : Prop :=
  BusyIsPending s ∧ HaltedHasNoCommand s ∧ NoErrorNoRecord s ∧ RecordIsListed s ∧ ValidCharLegal s
    ∧ InvalidHoldsReset s

/-- The one kind of access the block admits, inside the window (R50, R53). -/
abbrev Access.Admitted (a : Access) : Prop :=
  Config.base ≤ a.place.1 ∧ a.place.1 < Config.base + Config.windowBytes ∧ a.place.2 = 4
    ∧ (a.place.1 - Config.base) % 4 = 0

/-- A turn that cannot stop the machine: any but a host access that is not admitted. -/
def Turn.Safe (t : Turn) : Prop := ∀ a, t = .host a → a.Admitted

/-- The block is quiescent when PENDING is empty (R251). -/
abbrev State.Quiescent (s : State) : Prop := s.pending = none

/-- The end of a run: no turn is left and the block is quiescent (R251). -/
abbrev State.RunEnded (s : State) : Prop := s.turns = [] ∧ s.Quiescent

/-- The observation of a run: STATUS, ERRCMD and ELEM0 to ELEM3 (R251). -/
def State.observe (s : State) : List Word :=
  [s.regRead 0x04, s.regRead 0x08, s.regRead 0x10, s.regRead 0x14, s.regRead 0x18, s.regRead 0x1C]

end Sys2Proof.Machine
end

