-- ==== Sys2Proof/Certificates/Slice0/Obligations.lean ====
section
/-! DEFINITION. The statements about the GF2N core, made from the numbered rules of spec/. Each docstring names what the
statement formalises; OBLIGATIONS.json lists them. -/

open Sys2Proof Sys2Proof.Machine

namespace Sys2Proof.Claims

/-- The command R90's formulas give a line: `OP | RD<<4 | RA<<6 | RB<<8 | COND<<10` for format R,
`0x1 | RD<<4 | CHAR<<6 | COEF<<10 | MOD<<18` for format L. -/
def lineFormula : AsmLine → Nat
  | .lde ed coef mod char => 0x1 ||| ed <<< 4 ||| char <<< 6 ||| coef <<< 10 ||| mod <<< 18
  | .add ed ea eb => 0x2 ||| ed <<< 4 ||| ea <<< 6 ||| eb <<< 8
  | .sub ed ea eb => 0x3 ||| ed <<< 4 ||| ea <<< 6 ||| eb <<< 8
  | .mul ed ea eb => 0x4 ||| ed <<< 4 ||| ea <<< 6 ||| eb <<< 8
  | .inv ed ea => 0x5 ||| ed <<< 4 ||| ea <<< 6
  | .cmp cc ea eb => 0x6 ||| ea <<< 6 ||| eb <<< 8 ||| (condCode cc).toNat <<< 10

/-- What a command left alone that is the model's or the sequencer's, not the command's: BUSY, DROP, PENDING, the working
registers, what the host has read, the turns and the count of free values. That a meaning leaves BUSY and PENDING, which the
end of its commit clears, and the working registers, which no rule observes, is the model's choice (log 14, log 7). -/
def SameSurroundings (s t : State) : Prop :=
  t.status.busy = s.status.busy ∧ t.status.drop = s.status.drop ∧ t.pending = s.pending ∧ t.work = s.work
    ∧ t.returned = s.returned ∧ t.turns = s.turns ∧ t.fresh = s.fresh

/-- The four error fields are as before. -/
def SameErrorRecord (s t : State) : Prop :=
  t.status.err = s.status.err ∧ t.status.errcode = s.status.errcode ∧ t.status.errsub = s.status.errsub
    ∧ t.errcmd = s.errcmd

/-- The four error fields record a cause and the word that raised it, and nothing the command could have written is
written. -/
def RecordsError (s t : State) (w : Word) (c : ErrorCause) : Prop :=
  t.status.err = true ∧ t.status.errcode = c.code ∧ t.status.errsub = c.sub ∧ t.errcmd = w
    ∧ t.elems = s.elems ∧ t.status.cmpf = s.status.cmpf

/-- The command ends in the error of these codes: ERR, ERRCODE, ERRSUB and ERRCMD, which takes the command's word, are written
and nothing else (R201, R207). -/
def RaisesError (i : Instr) (s : State) (code sub : BitVec 4) : Prop :=
  exec i s = .next
    { s with status := { s.status with err := true, errcode := code, errsub := sub }, errcmd := encode i }

/-- COEF is below 2^CHAR (R21). -/
def Reduced (e : Element) : Prop := e.coef.toNat < 2 ^ e.char.toNat

/-- The preconditions of MUL (R134). -/
def MulReady (s : State) (ra rb : ElemReg) : Prop :=
  (s.elem ra).valid = true ∧ (s.elem rb).valid = true ∧ (s.elem ra).mod = (s.elem rb).mod ∧ (s.elem ra).mod ≠ 0
    ∧ (s.elem ra).char = (s.elem rb).char ∧ (s.elem ra).char ≠ 0

/-- The preconditions of INV that are checked before the search (R171). -/
def InvReady (s : State) (ra : ElemReg) : Prop :=
  (s.elem ra).valid = true ∧ (s.elem ra).mod ≠ 0 ∧ (s.elem ra).char ≠ 0

/-- A nonzero candidate below 2^n whose product with p is 1 (R170). -/
def IsInverse (p : Coef) (mod : Modulus) (n : Nat) (c : Coef) : Prop :=
  1 ≤ c.toNat ∧ c.toNat < 2 ^ n ∧ gfmul p c mod n = 1

/-- The fixed 8-bit variant of the multiplication: an 8-bit multiplicand register, a carry from bit 7, an XOR of the low
8 bits of the modulus, always 8 iterations (R137). -/
def fixedEightLoop (mod : Modulus) : Nat → BitVec 8 → BitVec 8 → BitVec 8 → BitVec 8
  | 0, _, _, product => product
  | k + 1, multiplicand, multiplier, product =>
    fixedEightLoop mod k
      (if multiplicand.getLsbD 7 then (multiplicand <<< 1) ^^^ mod.setWidth 8 else multiplicand <<< 1)
      (multiplier >>> 1)
      (if multiplier.getLsbD 0 then product ^^^ multiplicand else product)

end Sys2Proof.Claims

open Sys2Proof.Claims

/-! ## Encoding -/

/-- Every command decodes from its own word: no operand bit is dropped or moved (R82, R83, R88). -/
def Obligations.DecodeOfEncode : Prop := ∀ i : Instr, decode (encode i) = .ok i

/-- A word that decodes is the one word of its command: every word has exactly one meaning (R87, D9). -/
def Obligations.EncodeOfDecode : Prop := ∀ (w : Word) (i : Instr), decode w = .ok i → encode i = w

/-- A word is the command X exactly when it has X's match under X's mask, at most one row matches a word, and a word that
matches no row is an error (R87). -/
def Obligations.DecodeIsTheMatchingRow : Prop :=
  (∀ (w : Word) (c : Command), (∃ i, decode w = .ok i ∧ i.row = c) ↔ w &&& rowMask c = rowMatch c)
    ∧ (∀ (w : Word) (c d : Command), w &&& rowMask c = rowMatch c → w &&& rowMask d = rowMatch d → c = d)
    ∧ (∀ w : Word, (∀ c : Command, w &&& rowMask c ≠ rowMatch c) → ∃ k, decode w = .error k)

/-- Which sub-cause an illegal word has, in the order of the checks (R88, R89), written with the numeric value of the word:
OP is w mod 16, COND is (w / 2^10) mod 8. -/
def Obligations.IllegalWordSubCause : Prop :=
  ∀ w : Word,
    (decode w = .error .reservedOp ↔ w.toNat % 16 = 0 ∨ 7 ≤ w.toNat % 16)
    ∧ (decode w = .error .reservedCond ↔ w.toNat % 16 = 6 ∧ 6 ≤ w.toNat / 2 ^ 10 % 8)
    ∧ (decode w = .error .mustBeZero ↔
        (w.toNat % 16 = 1 ∧ w.toNat / 2 ^ 27 ≠ 0)
        ∨ (2 ≤ w.toNat % 16 ∧ w.toNat % 16 ≤ 4 ∧ w.toNat / 2 ^ 10 ≠ 0)
        ∨ (w.toNat % 16 = 5 ∧ w.toNat / 2 ^ 8 ≠ 0)
        ∨ (w.toNat % 16 = 6 ∧ w.toNat / 2 ^ 10 % 8 ≤ 5 ∧ (w.toNat / 2 ^ 13 ≠ 0 ∨ w.toNat / 2 ^ 4 % 4 ≠ 0)))

/-- The worked encodings of R92, each decoded, and each given by the assembler. -/
def Obligations.WorkedEncodings : Prop :=
  decode 0x002C08C1 = .ok (.lde .e0 0x02 0x00B 3) ∧ (AsmLine.lde 0 0x02 0x00B 3).assemble = some 0x002C08C1
    ∧ decode 0x046D5E11 = .ok (.lde .e1 0x57 0x11B 8) ∧ (AsmLine.lde 1 0x57 0x11B 8).assemble = some 0x046D5E11
    ∧ decode 0x00000122 = .ok (.add .e2 .e0 .e1) ∧ (AsmLine.add 2 0 1).assemble = some 0x00000122
    ∧ decode 0x00000123 = .ok (.sub .e2 .e0 .e1) ∧ (AsmLine.sub 2 0 1).assemble = some 0x00000123
    ∧ decode 0x00000124 = .ok (.mul .e2 .e0 .e1) ∧ (AsmLine.mul 2 0 1).assemble = some 0x00000124
    ∧ decode 0x00000015 = .ok (.inv .e1 .e0) ∧ (AsmLine.inv 1 0).assemble = some 0x00000015
    ∧ decode 0x00000106 = .ok (.cmpEq .e0 .e1) ∧ (AsmLine.cmp .eq 0 1).assemble = some 0x00000106
    ∧ decode 0x00000506 = .ok (.cmpNe .e0 .e1) ∧ (AsmLine.cmp .ne 0 1).assemble = some 0x00000506
    ∧ decode 0x00000906 = .ok (.cmpLt .e0 .e1) ∧ (AsmLine.cmp .lt 0 1).assemble = some 0x00000906
    ∧ decode 0x00000D06 = .ok (.cmpGt .e0 .e1) ∧ (AsmLine.cmp .gt 0 1).assemble = some 0x00000D06
    ∧ decode 0x00001106 = .ok (.cmpLe .e0 .e1) ∧ (AsmLine.cmp .le 0 1).assemble = some 0x00001106
    ∧ decode 0x00001506 = .ok (.cmpGe .e0 .e1) ∧ (AsmLine.cmp .ge 0 1).assemble = some 0x00001506

/-- The assembler gives every well-formed line the word of R90's formulas and refuses every other line. -/
def Obligations.AssemblerFollowsFormulas : Prop :=
  ∀ a : AsmLine,
    (a.wellFormed = true → a.assemble = some (BitVec.ofNat 32 (lineFormula a)) ∧ lineFormula a < 2 ^ 32)
    ∧ (a.wellFormed = false → a.assemble = none)

/-! ## The sequencer -/

/-- A step runs the decoded command: when the sequencer has the turn and the pending word decodes to i, the step is exec of i
and the end of the commit, on the state in which the turn is taken up (R57). -/
def Obligations.StepRunsDecodedCommand : Prop :=
  ∀ (s : State) (w : Word) (i : Instr), s.nextTurn = .sequencer → s.pending = some w → decode w = .ok i →
    step s = retireNext (exec i s.popTurn)

/-- An illegal word in PENDING: the sequencer's step takes IllegalCommand with the sub-cause of the first failing check, the
word in ERRCMD, and no element register, CMPF or DROP written (R204, R207). -/
def Obligations.IllegalWordTakesError : Prop :=
  ∀ (s : State) (w : Word) (k : IllegalKind),
    s.nextTurn = .sequencer → s.pending = some w → decode w = .error k →
    ∃ t, step s = .next t ∧ t.status.err = true ∧ t.status.errcode = 3
      ∧ t.status.errsub = (match k with | .reservedOp => 1 | .reservedCond => 2 | .mustBeZero => 3)
      ∧ t.errcmd = w ∧ t.elems = s.elems ∧ t.status.cmpf = s.status.cmpf ∧ t.status.drop = s.status.drop
      ∧ t.pending = none ∧ t.status.busy = false ∧ t.returned = s.returned ∧ t.turns = s.turns.tail

/-- Executing a pending word, legal or not, always commits: PENDING and BUSY are cleared, and either the error fields are as
before, or they record one cause and the pending word and no element register, VALID bit or CMPF is written (R57, R207). -/
def Obligations.CommitWritesResultOrErrorRecord : Prop :=
  ∀ (s : State) (w : Word), s.nextTurn = .sequencer → s.pending = some w →
    ∃ t, step s = .next t ∧ t.pending = none ∧ t.status.busy = false ∧ t.status.drop = s.status.drop
      ∧ t.returned = s.returned ∧ t.turns = s.turns.tail
      ∧ (SameErrorRecord s t ∨ ∃ c, RecordsError s t w c)

/-- `execute` reads only the element registers and the word: two states with the same element registers get the same error,
or the same register written with the same record, or the same CMPF (R57). -/
def Obligations.ExecuteReadsOnlyElements : Prop :=
  ∀ (i : Instr) (s u : State), s.elems = u.elems →
    (∃ c, exec i s = .next (s.commitError (encode i) c) ∧ exec i u = .next (u.commitError (encode i) c))
    ∨ (∃ rd e, destination i = some rd ∧ exec i s = .next (s.setElem rd e) ∧ exec i u = .next (u.setElem rd e))
    ∨ (∃ b, destination i = none ∧ exec i s = .next (s.setCmpf b) ∧ exec i u = .next (u.setCmpf b))

/-- With PENDING empty the sequencer is idle and its turn changes no state; the end of a run is therefore final (R218, R251). -/
def Obligations.IdleSequencerKeepsState : Prop :=
  ∀ s : State, s.nextTurn = .sequencer → s.pending = none →
    step s = .next s.popTurn ∧ (s.turns = [] → step s = .next s)

/-! ## The register window -/

/-- A CMD write is accepted when BUSY = 0 and ERR = 0: PENDING takes the word and BUSY is set. It is dropped otherwise: DROP is
set and nothing else changes (R56). -/
def Obligations.CmdWriteAcceptedOrDropped : Prop :=
  ∀ (s : State) (v : Word), s.nextTurn = .host (.memWrite Config.base 4 v) →
    (s.status.busy = false → s.status.err = false →
      step s = .next { s.popTurn with pending := some v, status := { s.status with busy := true } })
    ∧ (s.status.busy = true ∨ s.status.err = true →
      step s = .next { s.popTurn with status := { s.status with drop := true } })

/-- A read at any offset of the window gives the host the current value of the register there and changes nothing else; a
write at any offset but CMD's changes nothing; CMD and 0x0C read 0 (R55). -/
def Obligations.ReadsAndIgnoredWrites : Prop :=
  (∀ (s : State) (off : Nat), off < 0x20 → off % 4 = 0 → s.nextTurn = .host (.memRead (Config.base + off) 4) →
      step s = .next { s.popTurn with returned := s.regRead off :: s.returned })
    ∧ (∀ (s : State) (off : Nat) (v : Word), 0 < off → off < 0x20 → off % 4 = 0 →
      s.nextTurn = .host (.memWrite (Config.base + off) 4 v) → step s = .next s.popTurn)
    ∧ (∀ s : State, s.regRead 0x00 = 0 ∧ s.regRead 0x0C = 0)

/-- STATUS as the host reads it, field by field, the VALID mirror among them; ERRCMD as it reads it (R29, R35, R36). -/
def Obligations.StatusWordLayout : Prop :=
  ∀ s : State,
    (s.regRead 0x04).getLsbD 0 = s.status.busy ∧ (s.regRead 0x04).getLsbD 1 = s.status.err
    ∧ (s.regRead 0x04).getLsbD 2 = s.status.cmpf ∧ (s.regRead 0x04).getLsbD 3 = s.status.drop
    ∧ (s.regRead 0x04).extractLsb' 4 4 = s.status.errcode ∧ (s.regRead 0x04).extractLsb' 8 4 = s.status.errsub
    ∧ (s.regRead 0x04).getLsbD 12 = (s.elem .e0).valid ∧ (s.regRead 0x04).getLsbD 13 = (s.elem .e1).valid
    ∧ (s.regRead 0x04).getLsbD 14 = (s.elem .e2).valid ∧ (s.regRead 0x04).getLsbD 15 = (s.elem .e3).valid
    ∧ (s.regRead 0x04).extractLsb' 16 16 = 0 ∧ s.regRead 0x08 = s.errcmd

/-- ELEMi as the host reads it, field by field, for each of the four registers; writes to it are ignored (R37). -/
def Obligations.ElementViewLayout : Prop :=
  ∀ (s : State) (r : ElemReg) (off : Nat), (r, off) ∈ [(.e0, 0x10), (.e1, 0x14), (.e2, 0x18), (ElemReg.e3, 0x1C)] →
    (s.regRead off).extractLsb' 0 8 = (s.elem r).coef ∧ (s.regRead off).extractLsb' 8 4 = (s.elem r).char
    ∧ (s.regRead off).extractLsb' 12 4 = 0 ∧ (s.regRead off).extractLsb' 16 9 = (s.elem r).mod
    ∧ (s.regRead off).extractLsb' 25 6 = 0 ∧ (s.regRead off).getLsbD 31 = (s.elem r).valid
    ∧ ∀ v, s.regWrite off v = s

/-- Inside the window, an access that is not 32 bits wide or not at a multiple of 4 has no step and every other one has one;
outside it the model refuses (R50, R53). That a missing step is a fault of the whole machine is the model's choice (log 4), as
is the refusal (log 5). -/
def Obligations.UnadmittedAccessHasNoStep : Prop :=
  ∀ (s : State) (a : Access), s.nextTurn = .host a →
    (Config.base ≤ a.place.1 → a.place.1 < Config.base + 0x20 →
      (a.place.2 ≠ 4 → step s = .fault .accessWidth)
      ∧ (a.place.2 = 4 → (a.place.1 - Config.base) % 4 ≠ 0 → step s = .fault .accessAlignment)
      ∧ (a.place.2 = 4 → (a.place.1 - Config.base) % 4 = 0 → ∃ t, step s = .next t))
    ∧ (a.place.1 < Config.base ∨ Config.base + 0x20 ≤ a.place.1 → step s = .refused .platformAddress)

/-- The machine stops only at a host access that is not admitted: no command, no illegal word, no state stops it (R57: `execute`
is total). The converse, that such an access stops the machine, is the model's own and no rule's: R53 gives an access of
another width or misaligned no step and leaves only the host stuck on it, and that the whole machine then faults is a DESIGN
CHOICE (log 4); that an access outside the window is refused is DEDUCED (log 5). -/
def Obligations.StopsOnlyOnUnadmittedAccess : Prop :=
  ∀ s : State, (∀ t, step s ≠ .next t) ↔ ∃ a, s.nextTurn = .host a ∧ ¬ a.Admitted

/-- Visibility: the host's turn changes no element register, no CMPF and no error field; and while BUSY = 1 it does not change
the pending command or BUSY (R58, R63). The clause that it leaves the working registers is the model's choice, a DESIGN CHOICE
(log 7) and no rule's: real hardware changes them between acceptance and commit, which no rule observes. -/
def Obligations.HostTurnKeepsResults : Prop :=
  ∀ (s t : State) (a : Access), s.nextTurn = .host a → step s = .next t →
    t.elems = s.elems ∧ t.status.cmpf = s.status.cmpf ∧ SameErrorRecord s t ∧ t.work = s.work
    ∧ (s.status.busy = true → t.pending = s.pending ∧ t.status.busy = true)

/-- A read of STATUS that returns BUSY = 0 comes when no command is pending: every accepted command has committed, in every
coherent state (R61). -/
def Obligations.PollReadsZeroOnlyWhenCommitted : Prop :=
  ∀ (s t : State) (v : Word), s.Coherent → s.nextTurn = .host (.memRead (Config.base + 0x04) 4) →
    step s = .next t → t.returned.head? = some v → (v.getLsbD 0 = false ↔ s.pending = none)

/-! ## Reset -/

/-- Reset from any state leaves every piece of the block's state at the value R41 gives it; a pending command is abandoned; the
first CMD write is then accepted (R41, R240, R241). The state right after power-on has the same values. -/
def Obligations.ResetLeavesStatedValues : Prop :=
  (∀ s : State, s.nextTurn = .reset → ∃ t, step s = .next t
    ∧ (∀ r, (t.elem r).coef = 0x00 ∧ (t.elem r).mod = 0x000 ∧ (t.elem r).char = 0 ∧ (t.elem r).valid = false)
    ∧ (∀ off, off ∈ [0x04, 0x08, 0x10, 0x14, 0x18, 0x1C] → t.regRead off = 0x00000000) ∧ t.status.busy = false ∧ t.status.err = false ∧ t.status.cmpf = false
    ∧ t.status.drop = false ∧ t.status.errcode = 0 ∧ t.status.errsub = 0 ∧ t.errcmd = 0x00000000 ∧ t.pending = none
    ∧ t.work.multiplicand = 0 ∧ t.work.multiplier = 0 ∧ t.work.product = 0 ∧ t.work.iteration = 0
    ∧ t.work.candidate = 0 ∧ (∀ v, (t.regWrite 0x00 v).pending = some v))
  ∧ State.reset.resetBlock = State.reset

/-! ## The commands -/

/-- LDE checks only that CHAR is at most 8: it then stores COEF, MOD and CHAR as given, whatever they are, with VALID = 1;
with CHAR in 9 to 15 it raises CHAR_RANGE and stores nothing (R110, R112). -/
def Obligations.LdeStoresAsGiven : Prop :=
  ∀ (s : State) (rd : ElemReg) (coef : Coef) (mod : Modulus) (char : Charac),
    (char.toNat ≤ 8 →
      exec (.lde rd coef mod char) s =
        .next (s.setElem rd { coef := coef, mod := mod, char := char, valid := true }))
    ∧ (9 ≤ char.toNat → RaisesError (.lde rd coef mod char) s 1 1)

/-- ADD and SUB on valid operands: the XOR of the full 8-bit COEF fields, MOD and CHAR of the first operand, whatever the second
operand's are; rd, ra and rb may be the same registers (R120, R121, R122, R248). -/
def Obligations.AddSubResult : Prop :=
  ∀ (s : State) (rd ra rb : ElemReg), (s.elem ra).valid = true → (s.elem rb).valid = true →
    exec (.add rd ra rb) s =
      .next (s.setElem rd
        { coef := (s.elem ra).coef ^^^ (s.elem rb).coef, mod := (s.elem ra).mod, char := (s.elem ra).char, valid := true })
    ∧ exec (.sub rd ra rb) s =
      .next (s.setElem rd
        { coef := (s.elem ra).coef ^^^ (s.elem rb).coef, mod := (s.elem ra).mod, char := (s.elem ra).char, valid := true })

/-- For all states SUB and ADD produce the same state, apart from ERRCMD on an error (R122). -/
def Obligations.SubAgreesWithAdd : Prop :=
  ∀ (s : State) (rd ra rb : ElemReg), ∃ t, exec (.add rd ra rb) s = .next t
    ∧ ((t.errcmd = s.errcmd ∧ exec (.sub rd ra rb) s = .next t)
      ∨ ((∃ c, RecordsError s t (encode (.add rd ra rb)) c)
        ∧ exec (.sub rd ra rb) s = .next { t with errcmd := encode (.sub rd ra rb) }))

/-- A command that reads an operand register with VALID = 0 raises UninitialisedOperand: sub 1 for RA, which is checked first,
sub 2 for RB; for every command that reads one (R205). -/
def Obligations.UninitialisedOperandRaises : Prop :=
  ∀ (i : Instr) (s : State) (ra : ElemReg), firstSource i = some ra →
    ((s.elem ra).valid = false → RaisesError i s 4 1)
    ∧ (∀ rb, secondSource i = some rb → (s.elem ra).valid = true → (s.elem rb).valid = false → RaisesError i s 4 2)

/-- MUL on operands that meet its preconditions: the product gfmul under their MOD and CHAR; rd, ra and rb may be the same
registers (R134, R248). -/
def Obligations.MulResult : Prop :=
  ∀ (s : State) (rd ra rb : ElemReg), MulReady s ra rb →
    exec (.mul rd ra rb) s =
      .next (s.setElem rd
        { coef := gfmul (s.elem ra).coef (s.elem rb).coef (s.elem ra).mod (s.elem ra).char.toNat
          mod := (s.elem ra).mod, char := (s.elem ra).char, valid := true })

/-- MUL on valid operands reports the first failing check: MOD_MISMATCH, MOD_ZERO, CHAR_MISMATCH, CHAR_ZERO (R206). -/
def Obligations.MulChecksInOrder : Prop :=
  ∀ (s : State) (rd ra rb : ElemReg), (s.elem ra).valid = true → (s.elem rb).valid = true →
    ((s.elem ra).mod ≠ (s.elem rb).mod → RaisesError (.mul rd ra rb) s 1 2)
    ∧ ((s.elem ra).mod = (s.elem rb).mod → (s.elem ra).mod = 0 → RaisesError (.mul rd ra rb) s 1 4)
    ∧ ((s.elem ra).mod = (s.elem rb).mod → (s.elem ra).mod ≠ 0 → (s.elem ra).char ≠ (s.elem rb).char →
        RaisesError (.mul rd ra rb) s 1 3)
    ∧ ((s.elem ra).mod = (s.elem rb).mod → (s.elem ra).mod ≠ 0 → (s.elem ra).char = (s.elem rb).char →
        (s.elem ra).char = 0 → RaisesError (.mul rd ra rb) s 1 5)

/-- INV writes the first, smallest, candidate whose product with the operand is 1, under the operand's MOD and CHAR; rd may be
ra (R170, R171, R172). -/
def Obligations.InvWritesSmallestInverse : Prop :=
  ∀ (s : State) (rd ra : ElemReg) (c : Coef), InvReady s ra →
    IsInverse (s.elem ra).coef (s.elem ra).mod (s.elem ra).char.toNat c →
    (∀ d, IsInverse (s.elem ra).coef (s.elem ra).mod (s.elem ra).char.toNat d → c.toNat ≤ d.toNat) →
    exec (.inv rd ra) s =
      .next (s.setElem rd { coef := c, mod := (s.elem ra).mod, char := (s.elem ra).char, valid := true })

/-- INV raises NoInverseExists when no candidate has product 1 (R171, R203). -/
def Obligations.InvRaisesNoInverse : Prop :=
  ∀ (s : State) (rd ra : ElemReg), InvReady s ra →
    (∀ d, ¬ IsInverse (s.elem ra).coef (s.elem ra).mod (s.elem ra).char.toNat d) →
    RaisesError (.inv rd ra) s 2 0

/-- INV on a valid operand checks MOD, then CHAR, before the search (R171, R206). -/
def Obligations.InvChecksInOrder : Prop :=
  ∀ (s : State) (rd ra : ElemReg), (s.elem ra).valid = true →
    ((s.elem ra).mod = 0 → RaisesError (.inv rd ra) s 1 4)
    ∧ ((s.elem ra).mod ≠ 0 → (s.elem ra).char = 0 → RaisesError (.inv rd ra) s 1 5)

/-- Round trip: after an INV that found an inverse, MUL of the operand and the result writes COEF 1 (R175). -/
def Obligations.InvThenMulGivesOne : Prop :=
  ∀ (s : State) (rd ra rx : ElemReg) (d : Coef), rd ≠ ra → InvReady s ra →
    IsInverse (s.elem ra).coef (s.elem ra).mod (s.elem ra).char.toNat d →
    ∃ t, exec (.inv rd ra) s = .next t
      ∧ exec (.mul rx ra rd) t =
        .next (t.setElem rx { coef := 1, mod := (s.elem ra).mod, char := (s.elem ra).char, valid := true })

/-- The six comparisons on valid operands: CMPF is the relation between the COEF fields as unsigned integers, whatever MOD and
CHAR are, and nothing else is written (R150 to R157). -/
def Obligations.CompareResult : Prop :=
  ∀ (s : State) (ra rb : ElemReg), (s.elem ra).valid = true → (s.elem rb).valid = true →
    let x := (s.elem ra).coef.toNat
    let y := (s.elem rb).coef.toNat
    exec (.cmpEq ra rb) s = .next (s.setCmpf (decide (x = y)))
    ∧ exec (.cmpNe ra rb) s = .next (s.setCmpf (decide (x ≠ y)))
    ∧ exec (.cmpLt ra rb) s = .next (s.setCmpf (decide (x < y)))
    ∧ exec (.cmpGt ra rb) s = .next (s.setCmpf (decide (x > y)))
    ∧ exec (.cmpLe ra rb) s = .next (s.setCmpf (decide (x ≤ y)))
    ∧ exec (.cmpGe ra rb) s = .next (s.setCmpf (decide (x ≥ y)))

/-- Complements and mirror images among the comparisons on valid operands: NE of EQ, LE of GT, GE of LT, and GT is LT with the
operands exchanged (R152, R154, R155, R156). -/
def Obligations.ComparisonComplements : Prop :=
  ∀ (s : State) (ra rb : ElemReg), (s.elem ra).valid = true → (s.elem rb).valid = true →
    ∃ eq ne lt gt le ge lt' : State,
      exec (.cmpEq ra rb) s = .next eq ∧ exec (.cmpNe ra rb) s = .next ne ∧ exec (.cmpLt ra rb) s = .next lt
      ∧ exec (.cmpGt ra rb) s = .next gt ∧ exec (.cmpLe ra rb) s = .next le ∧ exec (.cmpGe ra rb) s = .next ge
      ∧ exec (.cmpLt rb ra) s = .next lt'
      ∧ ne.status.cmpf = !eq.status.cmpf ∧ le.status.cmpf = !gt.status.cmpf ∧ ge.status.cmpf = !lt.status.cmpf
      ∧ gt.status.cmpf = lt'.status.cmpf

/-- When an element is reduced (R21): what MUL and INV write always is; what LDE writes if the loaded COEF is below 2^CHAR; what
ADD and SUB write if both operands' COEF are below 2^CHAR of the first. -/
def Obligations.WrittenElementsAreReduced : Prop :=
  ∀ (s t : State) (rd ra rb : ElemReg),
    (∀ coef mod char, char.toNat ≤ 8 → coef.toNat < 2 ^ char.toNat →
      exec (.lde rd coef mod char) s = .next t → Reduced (t.elem rd))
    ∧ ((s.elem ra).valid = true → (s.elem rb).valid = true → Reduced (s.elem ra) →
      (s.elem rb).coef.toNat < 2 ^ (s.elem ra).char.toNat →
      exec (.add rd ra rb) s = .next t ∨ exec (.sub rd ra rb) s = .next t → Reduced (t.elem rd))
    ∧ (MulReady s ra rb → exec (.mul rd ra rb) s = .next t → Reduced (t.elem rd))
    ∧ (InvReady s ra → (∃ d, IsInverse (s.elem ra).coef (s.elem ra).mod (s.elem ra).char.toNat d) →
      exec (.inv rd ra) s = .next t → Reduced (t.elem rd))

/-! ## Frames -/

/-- The frame of LDE, ADD, SUB, MUL and INV: every element register but the destination is unchanged, and CMPF, DROP, BUSY and
PENDING; the error fields are unchanged and the destination is valid, or an error is recorded under the command's word and the
destination too is unchanged (R25, R26, R32, R207). -/
def Obligations.ElementCommandFrame : Prop :=
  ∀ (i : Instr) (rd : ElemReg) (s t : State), destination i = some rd → exec i s = .next t →
    (∀ r, r ≠ rd → t.elem r = s.elem r) ∧ t.status.cmpf = s.status.cmpf ∧ SameSurroundings s t
    ∧ ((SameErrorRecord s t ∧ (t.elem rd).valid = true) ∨ ∃ c, RecordsError s t (encode i) c)

/-- The frame of the six CMP commands: no element register is written; the error fields are unchanged, or an error is recorded
under the command's word and CMPF is unchanged (R26, R32, R150). -/
def Obligations.CompareCommandFrame : Prop :=
  ∀ (i : Instr) (s t : State), destination i = none → exec i s = .next t →
    t.elems = s.elems ∧ SameSurroundings s t ∧ (SameErrorRecord s t ∨ ∃ c, RecordsError s t (encode i) c)

/-- VALID: reset clears it in all four registers; the commit of a command with a destination leaves the destination valid,
changed or not, unless the command records an error; nothing but reset clears it, and no register changes but so; and a command
that reads a register with VALID = 0 raises UninitialisedOperand and writes nothing (R25). -/
def Obligations.ValidOnlyClearedByReset : Prop :=
  (∀ s t : State, s.nextTurn = .reset → step s = .next t → ∀ r, (t.elem r).valid = false)
  ∧ (∀ s t : State, s.nextTurn ≠ .reset → step s = .next t → ∀ r,
      ((s.elem r).valid = true → (t.elem r).valid = true)
      ∧ (t.elem r ≠ s.elem r → (t.elem r).valid = true ∧ s.nextTurn = .sequencer
        ∧ ∃ w i, s.pending = some w ∧ decode w = .ok i ∧ destination i = some r))
  ∧ (∀ (s : State) (w : Word) (i : Instr) (rd : ElemReg),
      s.nextTurn = .sequencer → s.pending = some w → decode w = .ok i → destination i = some rd →
      ∃ t, step s = .next t ∧ ((t.elem rd).valid = true ∨ ∃ c, RecordsError s t w c))
  ∧ (∀ (i : Instr) (s : State) (r : ElemReg), firstSource i = some r ∨ secondSource i = some r →
      (s.elem r).valid = false → RaisesError i s 4 1 ∨ RaisesError i s 4 2)

/-- CMPF is written only by the commit of a CMP.cc on valid operands, which writes 1 if the comparison holds and 0 if not; every
other step but reset leaves it (R32). -/
def Obligations.CmpfWrittenOnlyByCompare : Prop :=
  ∀ s t : State, s.nextTurn ≠ .reset → step s = .next t →
    (t.status.cmpf = s.status.cmpf
      ∨ ∃ w cc ra rb, s.nextTurn = .sequencer ∧ s.pending = some w ∧ decode w = .ok (cmpInstr cc ra rb)
        ∧ (s.elem ra).valid = true ∧ (s.elem rb).valid = true)
    ∧ (∀ w cc ra rb, s.nextTurn = .sequencer → s.pending = some w → decode w = .ok (cmpInstr cc ra rb) →
        (s.elem ra).valid = true → (s.elem rb).valid = true →
        t.status.cmpf = relationHolds cc (s.elem ra).coef (s.elem rb).coef)

/-! ## Invariants of the whole machine -/

/-- Every step keeps the state coherent (R23, R30, R31, R34, R36, R113, R201, R209). -/
def Obligations.StepKeepsCoherent : Prop :=
  ∀ s t : State, s.Coherent → step s = .next t → t.Coherent

/-- The state right after reset is coherent (R41). -/
def Obligations.ResetIsCoherent : Prop := State.reset.Coherent

/-- BUSY: set by an accepted CMD write, cleared by the commit whether the command succeeds or raises an error, and in every
state reached from one in which it says whether a command is pending it says so (R30). -/
def Obligations.BusyExactlyWhilePending : Prop :=
  ∀ s t : State, BusyIsPending s → step s = .next t →
    BusyIsPending t
    ∧ (s.pending = none → t.pending ≠ none → t.status.busy = true
        ∧ ∃ v, s.nextTurn = .host (.memWrite Config.base 4 v) ∧ t.pending = some v)
    ∧ (s.pending ≠ none → s.nextTurn = .sequencer → t.status.busy = false)

/-- While ERR = 1 no command executes and nothing of the block but DROP changes: the error record, the element registers and CMPF
stay, and PENDING stays empty. Reset clears the record and makes the block accept commands again (R209). -/
def Obligations.HaltedUntilReset : Prop :=
  (∀ s t : State, s.Coherent → s.status.err = true → s.nextTurn ≠ .reset → step s = .next t →
    SameErrorRecord s t ∧ t.elems = s.elems ∧ t.status.cmpf = s.status.cmpf ∧ t.pending = none
    ∧ t.status.busy = s.status.busy)
  ∧ (∀ s t : State, s.nextTurn = .reset → step s = .next t →
    t.status.err = false ∧ t.status.errcode = 0 ∧ t.status.errsub = 0 ∧ t.errcmd = 0
    ∧ ∀ v, (t.regWrite 0x00 v).pending = some v)

/-- DROP is set by every CMD write while BUSY = 1 or ERR = 1, which changes nothing else; it is set by nothing else and sticky
until reset (R33). -/
def Obligations.DropSetOnlyByDroppedWrite : Prop :=
  ∀ s t : State, s.nextTurn ≠ .reset → step s = .next t →
    (t.status.drop = true ↔ s.status.drop = true
      ∨ ((s.status.busy = true ∨ s.status.err = true) ∧ ∃ v, s.nextTurn = .host (.memWrite Config.base 4 v)))
    ∧ (∀ v, s.nextTurn = .host (.memWrite Config.base 4 v) → s.status.busy = true ∨ s.status.err = true →
      t = { s.popTurn with status := { s.status with drop := true } })

/-- Progress: every accepted command commits, if every access still to come is admitted (R250). With no reset among the turns the
host's turns that come before the sequencer's leave the pending word and everything its execution reads, and the sequencer's
turn then executes that word and clears PENDING and BUSY; a reset would abandon it (R240). Whatever the turns are, the machine
takes them all without stopping, and after one turn more no command is pending. Counting turns is the model's own measure, not
cycles, and the turn after the last listed one is the sequencer's by the model's choice (log 3). -/
def Obligations.PendingCommandCommits : Prop :=
  ∀ s : State, (∀ t ∈ s.turns, t.Safe) →
    (∀ w : Word, s.pending = some w → s.status.busy = true → Turn.reset ∉ s.turns →
      ∃ (k : Nat) (v u : State), k ≤ s.turns.length ∧ (∀ t ∈ s.turns.take k, ∃ a, t = .host a)
        ∧ Host.Core.run core k s = .next v ∧ v.nextTurn = .sequencer ∧ v.pending = some w
        ∧ v.elems = s.elems ∧ v.status.cmpf = s.status.cmpf ∧ SameErrorRecord s v
        ∧ Host.Core.run core (k + 1) s = .next u ∧ executeWord w v.popTurn = .next u
        ∧ u.pending = none ∧ u.status.busy = false)
    ∧ ∃ u : State, Host.Core.run core (s.turns.length + 1) s = .next u ∧ u.turns = [] ∧ u.pending = none

/-! ## The arithmetic -/

/-- Every product is below 2^n, for operands and moduli of every form (R138). -/
def Obligations.GfmulBelowFieldSize : Prop :=
  ∀ (a b : Coef) (mod : Modulus) (n : Nat), 1 ≤ n → n ≤ 8 → (gfmul a b mod n).toNat < 2 ^ n

/-- The closed form: gfmul is the carry-less product of the masked operands, reduced modulo x^n + (MOD mod 2^n); when MOD has degree
exactly n, that modulus is MOD (R135). -/
def Obligations.GfmulClosedForm : Prop :=
  ∀ (a b : Coef) (mod : Modulus) (n : Nat), 1 ≤ n → n ≤ 8 →
    (gfmul a b mod n).toNat
      = pmod (clmul (a.toNat % 2 ^ n) (b.toNat % 2 ^ n)) (1 <<< n ||| mod.toNat % 2 ^ n)
    ∧ (deg mod.toNat = n → 1 <<< n ||| mod.toNat % 2 ^ n = mod.toNat)

/-- Commutativity, for every modulus and unreduced operands too (R136). -/
def Obligations.GfmulCommutative : Prop :=
  ∀ (a b : Coef) (mod : Modulus) (n : Nat), 1 ≤ n → n ≤ 8 → gfmul a b mod n = gfmul b a mod n

/-- Zero absorption, and 1 as identity up to the masking of the operand (R136, R131). -/
def Obligations.GfmulZeroAndOne : Prop :=
  ∀ (a : Coef) (mod : Modulus) (n : Nat), 1 ≤ n → n ≤ 8 →
    gfmul a 0 mod n = 0 ∧ (gfmul a 1 mod n).toNat = a.toNat % 2 ^ n

/-- Associativity and distributivity over XOR on reduced values (R136). -/
def Obligations.GfmulRingLaws : Prop :=
  ∀ (x y z : Coef) (mod : Modulus) (n : Nat), 1 ≤ n → n ≤ 8 →
    x.toNat < 2 ^ n → y.toNat < 2 ^ n → z.toNat < 2 ^ n →
    gfmul (gfmul x y mod n) z mod n = gfmul x (gfmul y z mod n) mod n
    ∧ gfmul x (y ^^^ z) mod n = gfmul x y mod n ^^^ gfmul x z mod n

/-- The early exit changes no product: all n iterations give the same one (R132). -/
def Obligations.EarlyExitKeepsProduct : Prop :=
  ∀ (a b : Coef) (mod : Modulus) (n : Nat),
    gfmul a b mod n = ((mulIteration mod n)^[n] (mulStart a b n)).product

/-- Operand masking: only the low n bits of the operands take part (R131). -/
def Obligations.GfmulIgnoresHighBits : Prop :=
  ∀ (a b : Coef) (mod : Modulus) (n : Nat), 1 ≤ n → n ≤ 8 →
    gfmul a b mod n = gfmul (BitVec.ofNat 8 (a.toNat % 2 ^ n)) (BitVec.ofNat 8 (b.toNat % 2 ^ n)) mod n

/-- The fixed 8-bit variant is the case n = 8 (R137). -/
def Obligations.FixedEightBitVariantAgrees : Prop :=
  ∀ (a b : Coef) (mod : Modulus), gfmul a b mod 8 = fixedEightLoop mod 8 a b 0

/-- An element has at most one inverse, so the search order decides only the time (R172). -/
def Obligations.InverseIsUnique : Prop :=
  ∀ (p c d : Coef) (mod : Modulus) (n : Nat), 1 ≤ n → n ≤ 8 →
    IsInverse p mod n c → IsInverse p mod n d → c = d

/-- An operand whose low n bits are 0 has no inverse, whatever its higher bits are (R173). -/
def Obligations.NoInverseOfZero : Prop :=
  ∀ (p : Coef) (mod : Modulus) (n : Nat), 1 ≤ n → n ≤ 8 → p.toNat % 2 ^ n = 0 → invSearch p mod n = none
end

