-- ==== Sys2Proof/Laws/State.lean ====
section
/-! SUPPORT. One lemma for each field and each update of the state, so that no proof unfolds a record update. An update that
changes some fields of STATUS has a lemma for each field of STATUS instead of one for STATUS whole. -/

namespace Sys2Proof.Machine

open Sys2Proof

variable (s : State)

@[simp] theorem State.setElem_elems (r : ElemReg) (e : Element) : (s.setElem r e).elems = s.elems.set r e := rfl
@[simp] theorem State.setElem_status (r : ElemReg) (e : Element) : (s.setElem r e).status = s.status := rfl
@[simp] theorem State.setElem_errcmd (r : ElemReg) (e : Element) : (s.setElem r e).errcmd = s.errcmd := rfl
@[simp] theorem State.setElem_pending (r : ElemReg) (e : Element) : (s.setElem r e).pending = s.pending := rfl
@[simp] theorem State.setElem_work (r : ElemReg) (e : Element) : (s.setElem r e).work = s.work := rfl
@[simp] theorem State.setElem_returned (r : ElemReg) (e : Element) : (s.setElem r e).returned = s.returned := rfl
@[simp] theorem State.setElem_turns (r : ElemReg) (e : Element) : (s.setElem r e).turns = s.turns := rfl
@[simp] theorem State.setElem_fresh (r : ElemReg) (e : Element) : (s.setElem r e).fresh = s.fresh := rfl

@[simp] theorem State.setCmpf_elems (b : Bool) : (s.setCmpf b).elems = s.elems := rfl
@[simp] theorem State.setCmpf_busy (b : Bool) : (s.setCmpf b).status.busy = s.status.busy := rfl
@[simp] theorem State.setCmpf_err (b : Bool) : (s.setCmpf b).status.err = s.status.err := rfl
@[simp] theorem State.setCmpf_cmpf (b : Bool) : (s.setCmpf b).status.cmpf = b := rfl
@[simp] theorem State.setCmpf_drop (b : Bool) : (s.setCmpf b).status.drop = s.status.drop := rfl
@[simp] theorem State.setCmpf_errcode (b : Bool) : (s.setCmpf b).status.errcode = s.status.errcode := rfl
@[simp] theorem State.setCmpf_errsub (b : Bool) : (s.setCmpf b).status.errsub = s.status.errsub := rfl
@[simp] theorem State.setCmpf_errcmd (b : Bool) : (s.setCmpf b).errcmd = s.errcmd := rfl
@[simp] theorem State.setCmpf_pending (b : Bool) : (s.setCmpf b).pending = s.pending := rfl
@[simp] theorem State.setCmpf_work (b : Bool) : (s.setCmpf b).work = s.work := rfl
@[simp] theorem State.setCmpf_returned (b : Bool) : (s.setCmpf b).returned = s.returned := rfl
@[simp] theorem State.setCmpf_turns (b : Bool) : (s.setCmpf b).turns = s.turns := rfl
@[simp] theorem State.setCmpf_fresh (b : Bool) : (s.setCmpf b).fresh = s.fresh := rfl

@[simp] theorem State.commitError_elems (w : Word) (c : ErrorCause) : (s.commitError w c).elems = s.elems := rfl
@[simp] theorem State.commitError_busy (w : Word) (c : ErrorCause) : (s.commitError w c).status.busy = s.status.busy := rfl
@[simp] theorem State.commitError_err (w : Word) (c : ErrorCause) : (s.commitError w c).status.err = true := rfl
@[simp] theorem State.commitError_cmpf (w : Word) (c : ErrorCause) : (s.commitError w c).status.cmpf = s.status.cmpf := rfl
@[simp] theorem State.commitError_drop (w : Word) (c : ErrorCause) : (s.commitError w c).status.drop = s.status.drop := rfl
@[simp] theorem State.commitError_errcode (w : Word) (c : ErrorCause) : (s.commitError w c).status.errcode = c.code := rfl
@[simp] theorem State.commitError_errsub (w : Word) (c : ErrorCause) : (s.commitError w c).status.errsub = c.sub := rfl
@[simp] theorem State.commitError_errcmd (w : Word) (c : ErrorCause) : (s.commitError w c).errcmd = w := rfl
@[simp] theorem State.commitError_pending (w : Word) (c : ErrorCause) : (s.commitError w c).pending = s.pending := rfl
@[simp] theorem State.commitError_work (w : Word) (c : ErrorCause) : (s.commitError w c).work = s.work := rfl
@[simp] theorem State.commitError_returned (w : Word) (c : ErrorCause) : (s.commitError w c).returned = s.returned := rfl
@[simp] theorem State.commitError_turns (w : Word) (c : ErrorCause) : (s.commitError w c).turns = s.turns := rfl
@[simp] theorem State.commitError_fresh (w : Word) (c : ErrorCause) : (s.commitError w c).fresh = s.fresh := rfl

@[simp] theorem State.retire_elems : (s.retire).elems = s.elems := rfl
@[simp] theorem State.retire_busy : (s.retire).status.busy = false := rfl
@[simp] theorem State.retire_err : (s.retire).status.err = s.status.err := rfl
@[simp] theorem State.retire_cmpf : (s.retire).status.cmpf = s.status.cmpf := rfl
@[simp] theorem State.retire_drop : (s.retire).status.drop = s.status.drop := rfl
@[simp] theorem State.retire_errcode : (s.retire).status.errcode = s.status.errcode := rfl
@[simp] theorem State.retire_errsub : (s.retire).status.errsub = s.status.errsub := rfl
@[simp] theorem State.retire_errcmd : (s.retire).errcmd = s.errcmd := rfl
@[simp] theorem State.retire_pending : (s.retire).pending = none := rfl
@[simp] theorem State.retire_work : (s.retire).work = freeWork s.fresh := rfl
@[simp] theorem State.retire_returned : (s.retire).returned = s.returned := rfl
@[simp] theorem State.retire_turns : (s.retire).turns = s.turns := rfl
@[simp] theorem State.retire_fresh : (s.retire).fresh = s.fresh + 1 := rfl

@[simp] theorem State.giveHost_elems (v : Word) : (s.giveHost v).elems = s.elems := rfl
@[simp] theorem State.giveHost_status (v : Word) : (s.giveHost v).status = s.status := rfl
@[simp] theorem State.giveHost_errcmd (v : Word) : (s.giveHost v).errcmd = s.errcmd := rfl
@[simp] theorem State.giveHost_pending (v : Word) : (s.giveHost v).pending = s.pending := rfl
@[simp] theorem State.giveHost_work (v : Word) : (s.giveHost v).work = s.work := rfl
@[simp] theorem State.giveHost_returned (v : Word) : (s.giveHost v).returned = v :: s.returned := rfl
@[simp] theorem State.giveHost_turns (v : Word) : (s.giveHost v).turns = s.turns := rfl
@[simp] theorem State.giveHost_fresh (v : Word) : (s.giveHost v).fresh = s.fresh := rfl

@[simp] theorem State.popTurn_elems : (s.popTurn).elems = s.elems := rfl
@[simp] theorem State.popTurn_status : (s.popTurn).status = s.status := rfl
@[simp] theorem State.popTurn_errcmd : (s.popTurn).errcmd = s.errcmd := rfl
@[simp] theorem State.popTurn_pending : (s.popTurn).pending = s.pending := rfl
@[simp] theorem State.popTurn_work : (s.popTurn).work = s.work := rfl
@[simp] theorem State.popTurn_returned : (s.popTurn).returned = s.returned := rfl
@[simp] theorem State.popTurn_turns : (s.popTurn).turns = s.turns.tail := rfl
@[simp] theorem State.popTurn_fresh : (s.popTurn).fresh = s.fresh := rfl

@[simp] theorem State.resetBlock_elems : (s.resetBlock).elems = ElemFile.reset := rfl
@[simp] theorem State.resetBlock_status : (s.resetBlock).status = Status.reset := rfl
@[simp] theorem State.resetBlock_errcmd : (s.resetBlock).errcmd = 0 := rfl
@[simp] theorem State.resetBlock_pending : (s.resetBlock).pending = none := rfl
@[simp] theorem State.resetBlock_work : (s.resetBlock).work = Work.reset := rfl
@[simp] theorem State.resetBlock_returned : (s.resetBlock).returned = s.returned := rfl
@[simp] theorem State.resetBlock_turns : (s.resetBlock).turns = s.turns := rfl
@[simp] theorem State.resetBlock_fresh : (s.resetBlock).fresh = s.fresh := rfl

@[simp] theorem State.withPending_elems (w : Word) : (s.withPending w).elems = s.elems := rfl
@[simp] theorem State.withPending_busy (w : Word) : (s.withPending w).status.busy = true := rfl
@[simp] theorem State.withPending_err (w : Word) : (s.withPending w).status.err = s.status.err := rfl
@[simp] theorem State.withPending_cmpf (w : Word) : (s.withPending w).status.cmpf = s.status.cmpf := rfl
@[simp] theorem State.withPending_drop (w : Word) : (s.withPending w).status.drop = s.status.drop := rfl
@[simp] theorem State.withPending_errcode (w : Word) : (s.withPending w).status.errcode = s.status.errcode := rfl
@[simp] theorem State.withPending_errsub (w : Word) : (s.withPending w).status.errsub = s.status.errsub := rfl
@[simp] theorem State.withPending_errcmd (w : Word) : (s.withPending w).errcmd = s.errcmd := rfl
@[simp] theorem State.withPending_pending (w : Word) : (s.withPending w).pending = some w := rfl
@[simp] theorem State.withPending_work (w : Word) : (s.withPending w).work = s.work := rfl
@[simp] theorem State.withPending_returned (w : Word) : (s.withPending w).returned = s.returned := rfl
@[simp] theorem State.withPending_turns (w : Word) : (s.withPending w).turns = .sequencer :: s.turns := rfl
@[simp] theorem State.withPending_fresh (w : Word) : (s.withPending w).fresh = s.fresh := rfl

/-! ## Element registers -/

@[simp] theorem ElemFile.get_set_same (f : ElemFile) (r : ElemReg) (e : Element) : (f.set r e).get r = e := by
  cases r <;> rfl

theorem ElemFile.get_set_other (f : ElemFile) (r q : ElemReg) (e : Element) (h : q ≠ r) :
    (f.set r e).get q = f.get q := by
  cases r <;> cases q <;> first | rfl | exact absurd rfl h

/-- Two register files with the same four registers are the same. -/
theorem ElemFile.ext_get (f g : ElemFile) (h : ∀ r, f.get r = g.get r) : f = g := by
  cases f; cases g
  have h0 := h .e0; have h1 := h .e1; have h2 := h .e2; have h3 := h .e3
  simp only [ElemFile.get] at h0 h1 h2 h3
  rw [h0, h1, h2, h3]

theorem ElemReg.mem_all (r : ElemReg) : r ∈ ElemReg.all := by cases r <;> decide

theorem ErrorCause.mem_all (c : ErrorCause) : c ∈ ErrorCause.all := by cases c <;> decide

@[simp] theorem State.setElem_elem_same (r : ElemReg) (e : Element) : (s.setElem r e).elem r = e :=
  ElemFile.get_set_same _ _ _

theorem State.setElem_elem_other (r q : ElemReg) (e : Element) (h : q ≠ r) :
    (s.setElem r e).elem q = s.elem q :=
  ElemFile.get_set_other _ _ _ _ h

/-- An update that keeps the register file keeps every register. -/
theorem State.elem_congr {s t : State} (h : t.elems = s.elems) (r : ElemReg) : t.elem r = s.elem r := by
  unfold State.elem; rw [h]

@[simp] theorem State.reset_elem (r : ElemReg) : State.reset.elem r = Element.reset := by cases r <;> rfl

@[simp] theorem State.setCmpf_elem (b : Bool) (r : ElemReg) : (s.setCmpf b).elem r = s.elem r := rfl

@[simp] theorem State.commitError_elem (w : Word) (c : ErrorCause) (r : ElemReg) : (s.commitError w c).elem r = s.elem r := rfl

@[simp] theorem State.retire_elem (r : ElemReg) : (s.retire).elem r = s.elem r := rfl

@[simp] theorem State.giveHost_elem (v : Word) (r : ElemReg) : (s.giveHost v).elem r = s.elem r := rfl

@[simp] theorem State.popTurn_elem (r : ElemReg) : (s.popTurn).elem r = s.elem r := rfl

@[simp] theorem State.withPending_elem (w : Word) (r : ElemReg) : (s.withPending w).elem r = s.elem r := rfl

@[simp] theorem State.resetBlock_elem (r : ElemReg) : s.resetBlock.elem r = Element.reset := by cases r <;> rfl

end Sys2Proof.Machine
end

