-- ==== Sys2Proof/Laws/Ops.lean ====
section
/-! SUPPORT. For each shared operation, once, everything it can do: reading an operand, a precondition, a commit, offering a
command, the turns of the three agents, a step. -/

namespace Sys2Proof.Machine

open Sys2Proof

/-! ## Operands and preconditions -/

theorem operandA_valid {s : State} {r : ElemReg} (h : (s.elem r).valid = true) :
    s.operandA r = .ok (s.elem r) := by
  simp [State.operandA, h]

theorem operandA_invalid {s : State} {r : ElemReg} (h : (s.elem r).valid = false) :
    s.operandA r = .error .uninitA := by
  simp [State.operandA, h]

theorem operandB_valid {s : State} {r : ElemReg} (h : (s.elem r).valid = true) :
    s.operandB r = .ok (s.elem r) := by
  simp [State.operandB, h]

theorem operandB_invalid {s : State} {r : ElemReg} (h : (s.elem r).valid = false) :
    s.operandB r = .error .uninitB := by
  simp [State.operandB, h]

theorem require_true (c : ErrorCause) : require true c = .ok () := rfl

theorem require_false (c : ErrorCause) : require false c = .error c := rfl

/-! ## Committing -/

@[simp] theorem commit_ok (s t : State) (w : Word) : commit s w (.ok t) = .next t := rfl

@[simp] theorem commit_error (s : State) (w : Word) (c : ErrorCause) :
    commit s w (.error c) = .next (s.commitError w c) := rfl

/-- A commit always answers a next state: the result's, or the error record's. -/
theorem commit_cases (s : State) (w : Word) (r : Except ErrorCause State) :
    (∃ t, r = .ok t ∧ commit s w r = .next t) ∨ (∃ c, r = .error c ∧ commit s w r = .next (s.commitError w c)) := by
  cases r with
  | ok t => exact .inl ⟨t, rfl, rfl⟩
  | error c => exact .inr ⟨c, rfl, rfl⟩

@[simp] theorem retireNext_next (s : State) : retireNext (.next s) = .next s.retire := rfl

/-- Only a next state retires to a next state. -/
theorem retireNext_eq_next {o : Result} {t : State} (h : retireNext o = .next t) :
    ∃ u, o = .next u ∧ t = u.retire := by
  cases o with
  | next u => exact ⟨u, rfl, by simpa [retireNext] using h.symm⟩
  | fault f => simp [retireNext] at h
  | refused r => simp [retireNext] at h

/-! ## The window -/

/-- An address of the window has the offset it was made from. -/
theorem windowOffset_base_add {off : Nat} (h : off < Config.windowBytes) :
    windowOffset (Config.base + off) = some off := by
  have h1 : Config.base ≤ Config.base + off ∧ Config.base + off < Config.base + Config.windowBytes :=
    ⟨Nat.le_add_right _ _, Nat.add_lt_add_left h _⟩
  rw [windowOffset, if_pos h1]
  simp

/-- What an offered word does: it is accepted, or only DROP is set (R56). -/
theorem offerCommand_cases (s : State) (w : Word) :
    (s.status.busy = false ∧ s.status.err = false ∧
      s.offerCommand w = { s with pending := some w, status := { s.status with busy := true } }) ∨
    ((s.status.busy = true ∨ s.status.err = true) ∧
      s.offerCommand w = { s with status := { s.status with drop := true } }) := by
  cases hb : s.status.busy <;> cases he : s.status.err <;> simp [State.offerCommand, hb, he]

/-- What a write to the window does: it offers a command, or nothing (R55, R56). -/
theorem regWrite_cases (s : State) (off : Nat) (v : Word) :
    s.regWrite off v = s.offerCommand v ∨ s.regWrite off v = s := by
  unfold State.regWrite
  split <;> first | exact .inl rfl | exact .inr rfl

/-! ## Turns -/

/-- What the sequencer's turn does: nothing when idle, else it executes the pending word. -/
theorem sequencerTurn_cases (s : State) :
    (s.pending = none ∧ sequencerTurn s = .next s) ∨
    (∃ w k, s.pending = some w ∧ decode w = .error k ∧
      sequencerTurn s = .next (s.commitError w (illegalCause k)).retire) ∨
    (∃ w i, s.pending = some w ∧ decode w = .ok i ∧ sequencerTurn s = retireNext (exec i s)) := by
  unfold sequencerTurn
  cases hp : s.pending with
  | none => exact .inl ⟨rfl, rfl⟩
  | some w =>
    cases hd : decode w with
    | error k => exact .inr (.inl ⟨w, k, rfl, hd, by simp [executeWord, hd]⟩)
    | ok i => exact .inr (.inr ⟨w, i, rfl, hd, by simp [executeWord, hd]⟩)

/-- What the host's turn does when it answers a next state: a read that gives the host a value, a command offered, or an
ignored write. -/
theorem hostTurn_next {a : Access} {s t : State} (h : hostTurn a s = .next t) :
    (∃ off, t = s.giveHost (s.regRead off)) ∨ (∃ v, t = s.offerCommand v) ∨ t = s := by
  unfold hostTurn at h
  split at h
  · cases h
  · split at h
    · cases h
    · split at h
      · cases h
      · cases h
        cases a with
        | memRead addr n => exact .inl ⟨_, rfl⟩
        | memWrite addr n v =>
          rcases regWrite_cases s _ v with e | e
          · exact .inr (.inl ⟨v, e⟩)
          · exact .inr (.inr e)

/-- Where an access that has a step lies: at a 4-byte place of the window, at an offset that is a multiple of 4 (R53). -/
theorem hostTurn_admitted {a : Access} {s t : State} (h : hostTurn a s = .next t) :
    ∃ off, a.place = (Config.base + off, 4) ∧ off < Config.windowBytes ∧ off % 4 = 0 ∧ t = s.access off a := by
  unfold hostTurn at h
  split at h
  · cases h
  · rename_i off ho
    simp only [windowOffset] at ho
    split at ho
    · rename_i hin
      cases ho
      split at h
      · cases h
      split at h
      · cases h
      rename_i h4 hm
      cases h
      refine ⟨_, ?_, ?_, by omega, rfl⟩
      · ext
        · simp only []; omega
        · simp only []; omega
      · omega
    · cases ho

/-- Every access at such a place has a step: it is the access at its offset. -/
theorem hostTurn_of_place {a : Access} {off : Nat} (s : State) (hp : a.place = (Config.base + off, 4))
    (hin : off < Config.windowBytes) (hm : off % 4 = 0) : hostTurn a s = .next (s.access off a) := by
  simp [hostTurn, hp, windowOffset_base_add hin, hm]

/-- What executing a word does: the error record of an illegal word, or its command's meaning; either is retired. -/
theorem executeWord_cases (w : Word) (s : State) :
    (∃ k, decode w = .error k ∧ executeWord w s = .next (s.commitError w (illegalCause k)).retire) ∨
    (∃ i, decode w = .ok i ∧ executeWord w s = retireNext (exec i s)) := by
  cases hd : decode w with
  | error k => exact .inl ⟨k, rfl, by simp [executeWord, hd]⟩
  | ok i => exact .inr ⟨i, rfl, by simp [executeWord, hd]⟩

/-- Whose turn it was, and what came of it: the one inversion of a step. -/
theorem step_cases {s t : State} (h : step s = .next t) :
    (s.nextTurn = .sequencer ∧ sequencerTurn s.popTurn = .next t) ∨
    (∃ a, s.nextTurn = .host a ∧ hostTurn a s.popTurn = .next t) ∨
    (s.nextTurn = .reset ∧ t = s.popTurn.resetBlock) := by
  unfold step runTurn at h
  split at h
  · exact .inl ⟨by assumption, h⟩
  · exact .inr (.inl ⟨_, by assumption, h⟩)
  · cases h; exact .inr (.inr ⟨by assumption, rfl⟩)

/-- A run of one step more goes on from the next state of the first. -/
theorem run_succ (M : Host.Core) {s t : M.State} (h : M.step s = .next t) (k : Nat) : M.run (k + 1) s = M.run k t := by
  simp only [Host.Core.run, h]

/-- The fetched word is pending and the sequencer runs it in the very next step. -/
theorem step_withFetchWord (s : State) (nbits w : Nat) :
    ∃ u : State, u.elems = s.elems ∧ u.pending = some (BitVec.ofNat 32 (w % 2 ^ nbits)) ∧ u.turns = s.turns ∧
      step (s.withFetchWord nbits w) = executeWord (BitVec.ofNat 32 (w % 2 ^ nbits)) u :=
  ⟨(s.withFetchWord nbits w).popTurn, rfl, rfl, rfl, rfl⟩

end Sys2Proof.Machine
end

