-- ==== Sys2Proof/Laws/Commands.lean ====
section
/-! SUPPORT. What each command can do, said once: the shared results, then one inversion lemma for each meaning, then one for exec.
A proof about every command takes its cases from `exec_cases`. -/

namespace Sys2Proof.Machine

open Sys2Proof

/-! ## Shared results -/

theorem addResult_valid {s : State} {ra rb : ElemReg} (rd : ElemReg)
    (ha : (s.elem ra).valid = true) (hb : (s.elem rb).valid = true) :
    addResult rd ra rb s = .ok (s.setElem rd (xorAdd (s.elem ra) (s.elem rb))) := by
  simp [addResult, operandA_valid ha, operandB_valid hb, bind, Except.bind, pure, Except.pure]

theorem compareResult_valid {s : State} {ra rb : ElemReg} (cc : Cond)
    (ha : (s.elem ra).valid = true) (hb : (s.elem rb).valid = true) :
    compareResult cc ra rb s = .ok (s.setCmpf (relationHolds cc (s.elem ra).coef (s.elem rb).coef)) := by
  simp [compareResult, operandA_valid ha, operandB_valid hb, bind, Except.bind, pure, Except.pure]

/-- Reading two operands: both are valid, or the first invalid one decides the error. -/
theorem operands_cases (s : State) (ra rb : ElemReg) :
    ((s.elem ra).valid = true ∧ (s.elem rb).valid = true) ∨
    (s.elem ra).valid = false ∨
    ((s.elem ra).valid = true ∧ (s.elem rb).valid = false) := by
  cases (s.elem ra).valid <;> cases (s.elem rb).valid <;> simp

theorem addResult_cases (rd ra rb : ElemReg) (s : State) :
    ((s.elem ra).valid = true ∧ (s.elem rb).valid = true ∧
      addResult rd ra rb s = .ok (s.setElem rd (xorAdd (s.elem ra) (s.elem rb)))) ∨
    (∃ c, addResult rd ra rb s = .error c) := by
  rcases operands_cases s ra rb with ⟨ha, hb⟩ | ha | ⟨ha, hb⟩
  · exact .inl ⟨ha, hb, addResult_valid rd ha hb⟩
  · exact .inr ⟨_, by simp [addResult, operandA_invalid ha, bind, Except.bind]; rfl⟩
  · exact .inr ⟨_, by simp [addResult, operandA_valid ha, operandB_invalid hb, bind, Except.bind]; rfl⟩

theorem compareResult_cases (cc : Cond) (ra rb : ElemReg) (s : State) :
    ((s.elem ra).valid = true ∧ (s.elem rb).valid = true ∧
      compareResult cc ra rb s = .ok (s.setCmpf (relationHolds cc (s.elem ra).coef (s.elem rb).coef))) ∨
    (∃ c, compareResult cc ra rb s = .error c) := by
  rcases operands_cases s ra rb with ⟨ha, hb⟩ | ha | ⟨ha, hb⟩
  · exact .inl ⟨ha, hb, compareResult_valid cc ha hb⟩
  · exact .inr ⟨_, by simp [compareResult, operandA_invalid ha, bind, Except.bind]; rfl⟩
  · exact .inr ⟨_, by simp [compareResult, operandA_valid ha, operandB_invalid hb, bind, Except.bind]; rfl⟩

/-! ## What a meaning can do -/

/-- A command ended in an error: the record is written under its word. -/
def EndsInError (i : Instr) (s : State) : Prop := ∃ c, exec i s = .next (s.commitError (encode i) c)

/-- A command wrote its destination: with a valid record whose CHAR is an immediate LDE accepted, or a valid operand's. -/
def WritesElement (i : Instr) (s : State) : Prop :=
  ∃ rd e, destination i = some rd ∧ e.valid = true ∧
    (e.char.toNat ≤ Config.nMax ∨ ∃ ra, (s.elem ra).valid = true ∧ e.char = (s.elem ra).char) ∧
    exec i s = .next (s.setElem rd e)

/-- A comparison of valid operands wrote CMPF. -/
def WritesCmpf (i : Instr) (s : State) : Prop :=
  ∃ cc ra rb, i = cmpInstr cc ra rb ∧ (s.elem ra).valid = true ∧ (s.elem rb).valid = true ∧
    exec i s = .next (s.setCmpf (relationHolds cc (s.elem ra).coef (s.elem rb).coef))

theorem exec_lde_cases (rd : ElemReg) (coef : Coef) (mod : Modulus) (char : Charac) (s : State) :
    EndsInError (.lde rd coef mod char) s ∨ WritesElement (.lde rd coef mod char) s := by
  by_cases h : char.toNat ≤ Config.nMax
  · refine .inr ⟨rd, ⟨coef, mod, char, true⟩, rfl, rfl, .inl h, ?_⟩
    simp [exec, execLde, require, h, bind, Except.bind, pure, Except.pure]
  · refine .inl ⟨.charRange, ?_⟩
    simp [exec, execLde, require, h, bind, Except.bind]

theorem exec_add_cases (rd ra rb : ElemReg) (s : State) :
    EndsInError (.add rd ra rb) s ∨ WritesElement (.add rd ra rb) s := by
  rcases addResult_cases rd ra rb s with ⟨ha, _, e⟩ | ⟨c, e⟩
  · exact .inr ⟨rd, xorAdd (s.elem ra) (s.elem rb), rfl, rfl, .inr ⟨ra, ha, rfl⟩, by simp [exec, execAdd, e]⟩
  · exact .inl ⟨c, by simp [exec, execAdd, e]⟩

theorem exec_sub_cases (rd ra rb : ElemReg) (s : State) :
    EndsInError (.sub rd ra rb) s ∨ WritesElement (.sub rd ra rb) s := by
  rcases addResult_cases rd ra rb s with ⟨ha, _, e⟩ | ⟨c, e⟩
  · exact .inr ⟨rd, xorAdd (s.elem ra) (s.elem rb), rfl, rfl, .inr ⟨ra, ha, rfl⟩, by simp [exec, execSub, e]⟩
  · exact .inl ⟨c, by simp [exec, execSub, e]⟩

theorem exec_mul_cases (rd ra rb : ElemReg) (s : State) :
    EndsInError (.mul rd ra rb) s ∨ WritesElement (.mul rd ra rb) s := by
  rcases operands_cases s ra rb with ⟨ha, hb⟩ | ha | ⟨ha, hb⟩
  · simp only [EndsInError, WritesElement, exec, execMul, operandA_valid ha, operandB_valid hb, bind, Except.bind,
      pure, Except.pure, require]
    repeat' split
    any_goals exact .inl ⟨_, rfl⟩
    refine .inr ⟨rd, ⟨_, _, _, _⟩, rfl, ?_, .inr ⟨ra, ha, ?_⟩, rfl⟩ <;> rfl
  · exact .inl ⟨.uninitA, by simp [exec, execMul, operandA_invalid ha, bind, Except.bind]⟩
  · exact .inl ⟨.uninitB, by simp [exec, execMul, operandA_valid ha, operandB_invalid hb, bind, Except.bind]⟩

theorem exec_inv_cases (rd ra : ElemReg) (s : State) :
    EndsInError (.inv rd ra) s ∨ WritesElement (.inv rd ra) s := by
  cases ha : (s.elem ra).valid
  · exact .inl ⟨.uninitA, by simp [exec, execInv, operandA_invalid ha, bind, Except.bind]⟩
  · simp only [EndsInError, WritesElement, exec, execInv, operandA_valid ha, bind, Except.bind, pure, Except.pure,
      require]
    repeat' split
    any_goals exact .inl ⟨_, rfl⟩
    refine .inr ⟨rd, ⟨_, _, _, _⟩, rfl, ?_, .inr ⟨ra, ha, ?_⟩, rfl⟩ <;> rfl

theorem exec_cmp_cases (cc : Cond) (ra rb : ElemReg) (s : State) :
    EndsInError (cmpInstr cc ra rb) s ∨ WritesCmpf (cmpInstr cc ra rb) s := by
  rcases compareResult_cases cc ra rb s with ⟨ha, hb, e⟩ | ⟨c, e⟩
  · refine .inr ⟨cc, ra, rb, rfl, ha, hb, ?_⟩
    cases cc <;>
      simp [cmpInstr, exec, execCmpEq, execCmpNe, execCmpLt, execCmpGt, execCmpLe, execCmpGe, e]
  · refine .inl ⟨c, ?_⟩
    cases cc <;>
      simp [cmpInstr, exec, execCmpEq, execCmpNe, execCmpLt, execCmpGt, execCmpLe, execCmpGe, e]

/-- Every command, in every state: an error is recorded, or the destination is written, or CMPF is. -/
theorem exec_cases (i : Instr) (s : State) : EndsInError i s ∨ WritesElement i s ∨ WritesCmpf i s := by
  have left : ∀ {p q r : Prop}, p ∨ q → p ∨ q ∨ r := fun h => h.elim .inl fun h => .inr (.inl h)
  have right : ∀ {p q r : Prop}, p ∨ r → p ∨ q ∨ r := fun h => h.elim .inl fun h => .inr (.inr h)
  cases i with
  | lde rd coef mod char => exact left (exec_lde_cases rd coef mod char s)
  | add rd ra rb => exact left (exec_add_cases rd ra rb s)
  | sub rd ra rb => exact left (exec_sub_cases rd ra rb s)
  | mul rd ra rb => exact left (exec_mul_cases rd ra rb s)
  | inv rd ra => exact left (exec_inv_cases rd ra s)
  | cmpEq ra rb => exact right (exec_cmp_cases .eq ra rb s)
  | cmpNe ra rb => exact right (exec_cmp_cases .ne ra rb s)
  | cmpLt ra rb => exact right (exec_cmp_cases .lt ra rb s)
  | cmpGt ra rb => exact right (exec_cmp_cases .gt ra rb s)
  | cmpLe ra rb => exact right (exec_cmp_cases .le ra rb s)
  | cmpGe ra rb => exact right (exec_cmp_cases .ge ra rb s)

/-- Executing a word, legal or not, in any state, answers a retired state that keeps the turns and what the host has read. -/
theorem executeWord_next (w : Word) (s : State) :
    ∃ u : State, executeWord w s = .next u.retire ∧ u.turns = s.turns ∧ u.returned = s.returned := by
  rcases executeWord_cases w s with ⟨k, _, e⟩ | ⟨i, _, e⟩
  · exact ⟨_, e, rfl, rfl⟩
  · rw [e]
    rcases exec_cases i s with ⟨c, e⟩ | ⟨rd, x, _, _, _, e⟩ | ⟨_, _, _, _, _, _, e⟩ <;> rw [e] <;>
      exact ⟨_, rfl, rfl, rfl⟩

theorem destination_cmpInstr (cc : Cond) (ra rb : ElemReg) : destination (cmpInstr cc ra rb) = none := by
  cases cc <;> rfl

end Sys2Proof.Machine
end

