-- ==== Sys2Proof/Laws/Gf.lean ====
section
/-! SUPPORT. The multiplier's and the search's functions, bit by bit and step by step: the masks, one shift-and-reduce, one
iteration of the loop, one candidate of the search. -/

namespace Sys2Proof.Machine

open Sys2Proof

/-- Bit i of mask(n) is 1 exactly below n. -/
theorem mask_getLsbD (w n i : Nat) : (mask w n).getLsbD i = (decide (i < w) && decide (i < n)) := by
  simp [mask, BitVec.getLsbD_ofNat, Nat.testBit_two_pow_sub_one]

/-- ANDing with mask(n) is the value modulo 2^n. -/
theorem and_mask_toNat {w : Nat} (x : BitVec w) (n : Nat) : (x &&& mask w n).toNat = x.toNat % 2 ^ n := by
  apply Nat.eq_of_testBit_eq
  intro i
  rw [Nat.testBit_mod_two_pow]
  have h := mask_getLsbD w n i
  simp only [BitVec.getLsbD] at h
  rw [BitVec.toNat_and, Nat.testBit_and, h]
  by_cases hw : i < w
  · simp [hw, Bool.and_comm]
  · have : x.toNat.testBit i = false :=
      Nat.testBit_lt_two_pow (Nat.lt_of_lt_of_le x.isLt (Nat.pow_le_pow_right (by decide) (Nat.le_of_not_lt hw)))
    simp [this]

/-- Bit i of one shift-and-reduce, below bit 8 (R133): the bit below it, XOR the modulus's bit if bit n-1 was set; 0 from
bit n up. -/
theorem shiftReduce_getLsbD (mod : Modulus) (n : Nat) (m : BitVec 8) (i : Nat) (hi : i < 8) :
    (shiftReduce mod n m).getLsbD i =
      (decide (i < n) &&
        ((decide (0 < i) && m.getLsbD (i - 1)) != (m.getLsbD (n - 1) && mod.getLsbD i))) := by
  unfold shiftReduce
  have h : (((m.setWidth 9 <<< 1) &&& mask 9 n).setWidth 8).getLsbD i =
      (decide (i < n) && (decide (0 < i) && m.getLsbD (i - 1))) := by
    simp only [BitVec.getLsbD_setWidth, BitVec.getLsbD_and, BitVec.getLsbD_shiftLeft, mask_getLsbD]
    interval_cases i <;> simp [Bool.and_comm]
  have h' : ((mod &&& mask 9 n).setWidth 8).getLsbD i = (decide (i < n) && mod.getLsbD i) := by
    simp only [BitVec.getLsbD_setWidth, BitVec.getLsbD_and, mask_getLsbD]
    interval_cases i <;> simp [Bool.and_comm]
  cases m.getLsbD (n - 1)
  · rw [if_neg (by decide), h]
    cases decide (i < n) <;> simp
  · rw [if_pos rfl, BitVec.getLsbD_xor, h, h']
    generalize (decide (0 < i) && m.getLsbD (i - 1)) = x
    generalize mod.getLsbD i = y
    cases decide (i < n) <;> cases x <;> cases y <;> rfl

/-- A zero multiplicand stays zero. -/
theorem shiftReduce_zero (mod : Modulus) (n : Nat) : shiftReduce mod n 0 = 0 := by
  simp [shiftReduce]

@[simp] theorem mulLoop_zero (mod : Modulus) (n : Nat) (k : Work) : mulLoop mod n 0 k = k := rfl

theorem mulLoop_exit {mod : Modulus} {n fuel : Nat} {k : Work} (h : k.multiplicand = 0 ∨ k.multiplier = 0) :
    mulLoop mod n (fuel + 1) k = k := by
  rw [mulLoop, if_pos h]

theorem mulLoop_iterate {mod : Modulus} {n fuel : Nat} {k : Work} (h : ¬ (k.multiplicand = 0 ∨ k.multiplier = 0)) :
    mulLoop mod n (fuel + 1) k = mulLoop mod n fuel (mulIteration mod n k) := by
  rw [mulLoop, if_neg h]

/-- An iteration with a zero operand leaves the product. -/
theorem mulIteration_product_of_zero {mod : Modulus} {n : Nat} {k : Work}
    (h : k.multiplicand = 0 ∨ k.multiplier = 0) : (mulIteration mod n k).product = k.product := by
  rcases h with h | h <;> simp [mulIteration, h]

/-- An iteration keeps a zero operand zero. -/
theorem mulIteration_keeps_zero {mod : Modulus} {n : Nat} {k : Work}
    (h : k.multiplicand = 0 ∨ k.multiplier = 0) :
    (mulIteration mod n k).multiplicand = 0 ∨ (mulIteration mod n k).multiplier = 0 := by
  rcases h with h | h
  · exact .inl (by simp [mulIteration, h, shiftReduce])
  · exact .inr (by simp [mulIteration, h])

theorem searchFrom_found {p : Coef} {mod : Modulus} {n left : Nat} {c : BitVec 9}
    (h : gfmul p (c.setWidth 8) mod n = 1) : searchFrom p mod n (left + 1) c = some (c.setWidth 8) := by
  rw [searchFrom, if_pos h]

theorem searchFrom_next {p : Coef} {mod : Modulus} {n left : Nat} {c : BitVec 9}
    (h : gfmul p (c.setWidth 8) mod n ≠ 1) :
    searchFrom p mod n (left + 1) c = searchFrom p mod n left (c + 1) := by
  rw [searchFrom, if_neg h]

end Sys2Proof.Machine
end

