-- ==== Sys2Proof/Laws/PerInstr.lean ====
section
/-! SUPPORT. Statements made for every command, one lemma for each constructor. The family EncodingRow: a command's word lies in
its row of R87. -/

namespace Sys2Proof.Laws.EncodingRow

open Sys2Proof

/-- The word of a command matches the match and mask of its row (R87). -/
def Statement (i : Instr) : Prop := encode i &&& rowMask i.row = rowMatch i.row

theorem lde (rd : ElemReg) (coef : Coef) (mod : Modulus) (char : Charac) : Statement (.lde rd coef mod char) := by
  have h : ∀ b : BitVec 2, formatL mod coef char b &&& 0xF800000F = 0x00000001 := by
    intro b
    apply BitVec.eq_of_getLsbD_eq
    intro k hk
    simp only [formatL, BitVec.getLsbD_and, BitVec.getLsbD_append]
    interval_cases k <;> simp
  exact h _

theorem add (rd ra rb : ElemReg) : Statement (.add rd ra rb) := by
  cases rd <;> cases ra <;> cases rb <;> rfl

theorem sub (rd ra rb : ElemReg) : Statement (.sub rd ra rb) := by
  cases rd <;> cases ra <;> cases rb <;> rfl

theorem mul (rd ra rb : ElemReg) : Statement (.mul rd ra rb) := by
  cases rd <;> cases ra <;> cases rb <;> rfl

theorem inv (rd ra : ElemReg) : Statement (.inv rd ra) := by
  cases rd <;> cases ra <;> rfl

theorem cmpEq (ra rb : ElemReg) : Statement (.cmpEq ra rb) := by
  cases ra <;> cases rb <;> rfl

theorem cmpNe (ra rb : ElemReg) : Statement (.cmpNe ra rb) := by
  cases ra <;> cases rb <;> rfl

theorem cmpLt (ra rb : ElemReg) : Statement (.cmpLt ra rb) := by
  cases ra <;> cases rb <;> rfl

theorem cmpGt (ra rb : ElemReg) : Statement (.cmpGt ra rb) := by
  cases ra <;> cases rb <;> rfl

theorem cmpLe (ra rb : ElemReg) : Statement (.cmpLe ra rb) := by
  cases ra <;> cases rb <;> rfl

theorem cmpGe (ra rb : ElemReg) : Statement (.cmpGe ra rb) := by
  cases ra <;> cases rb <;> rfl

end Sys2Proof.Laws.EncodingRow
end

