-- ==== Sys2Proof/Tests/Slice0.lean ====
section
/-! SUPPORT. Small tests. Expected values come from spec/ (95_test_vectors.md, 30_encoding.md R92, and words written out bit by bit
from R82 and R83), never from the model. Then, for every statement with hypotheses, a state and operands that meet them. -/

open Sys2Proof Sys2Proof.Machine Sys2Proof.Claims

namespace Sys2Proof.Tests

/-! ## Helpers -/

/-- The next state of an outcome, if it is one. -/
def nextOf : Result → Option State
  | .next s => some s
  | .fault _ => none
  | .refused _ => none

/-- A valid element. -/
def el (coef : Coef) (mod : Modulus) (char : Charac) : Element :=
  { coef := coef, mod := mod, char := char, valid := true }

/-- The reset state with E0 and E1 loaded. -/
def two (a b : Element) : State := (State.reset.setElem .e0 a).setElem .e1 b

/-- E2 after a command. -/
def e2After (i : Instr) (s : State) : Option Element := (nextOf (exec i s)).map (·.elem .e2)

/-- ERR, ERRCODE, ERRSUB and ERRCMD after a command. -/
def errorAfter (i : Instr) (s : State) : Option (Bool × BitVec 4 × BitVec 4 × Word) :=
  (nextOf (exec i s)).map fun t => (t.status.err, t.status.errcode, t.status.errsub, t.errcmd)

/-- CMPF after a command. -/
def cmpfAfter (i : Instr) (s : State) : Option Bool := (nextOf (exec i s)).map (·.status.cmpf)

/-- The state after executing one word that the host wrote to CMD while the block was idle. -/
def afterWord (w : Nat) (s : State) : Option State := nextOf (step (s.withFetchWord 32 w))

/-! ## Well-formed lines (R90): one ill-formed line for each check -/

theorem test_wf_register : (AsmLine.add 4 0 1).wellFormed = false ∧ (AsmLine.inv 0 4).wellFormed = false
    ∧ (AsmLine.cmp .eq 0 4).wellFormed = false ∧ (AsmLine.mul 3 3 3).wellFormed = true := by decide

theorem test_wf_coef : (AsmLine.lde 0 256 0 0).wellFormed = false ∧ (AsmLine.lde 0 255 0 0).wellFormed = true := by
  decide

theorem test_wf_mod : (AsmLine.lde 0 0 512 0).wellFormed = false ∧ (AsmLine.lde 0 0 511 0).wellFormed = true := by
  decide

/-- CHAR 9 to 15 is accepted by the assembler (R90). -/
theorem test_wf_char : (AsmLine.lde 0 0 0 16).wellFormed = false ∧ (AsmLine.lde 0 0 0 15).wellFormed = true := by
  decide

theorem test_assemble_refuses : (AsmLine.sub 0 4 1).assemble = none := by decide

/-! ## Decoding words written out bit by bit from R82 and R83 -/

/-- RSV 00000, MOD 000001011, COEF 00000010, CHAR 0011, RD 00, OP 0001. -/
theorem test_decode_lde :
    decode (0b00000#5 ++ 0b000001011#9 ++ 0b00000010#8 ++ 0b0011#4 ++ 0b00#2 ++ 0b0001#4)
      = .ok (.lde .e0 2 11 3) := by decide

/-- RSV 0, COND 000, RB 01, RA 00, RD 10, OP 0010. -/
theorem test_decode_add : decode 0b00000000000000000000000100100010 = .ok (.add .e2 .e0 .e1) := by decide

/-- RSV 0, COND 000, RB 10, RA 11, RD 11, OP 0011. -/
theorem test_decode_sub : decode 0b00000000000000000000001011110011 = .ok (.sub .e3 .e3 .e2) := by decide

/-- RSV 0, COND 000, RB 00, RA 00, RD 11, OP 0100. -/
theorem test_decode_mul : decode 0b00000000000000000000000000110100 = .ok (.mul .e3 .e0 .e0) := by decide

/-- RSV 0, COND 000, RB 00, RA 10, RD 11, OP 0101. -/
theorem test_decode_inv : decode 0b00000000000000000000000010110101 = .ok (.inv .e3 .e2) := by decide

/-- RSV 0, COND 000, RB 11, RA 10, RD 00, OP 0110. -/
theorem test_decode_cmpEq : decode 0b00000000000000000000001110000110 = .ok (.cmpEq .e2 .e3) := by decide

/-- COND 001, RB 01, RA 00. -/
theorem test_decode_cmpNe : decode 0b00000000000000000000010100000110 = .ok (.cmpNe .e0 .e1) := by decide

/-- COND 010, RB 01, RA 11. -/
theorem test_decode_cmpLt : decode 0b00000000000000000000100111000110 = .ok (.cmpLt .e3 .e1) := by decide

/-- COND 011, RB 10, RA 11. -/
theorem test_decode_cmpGt : decode 0b00000000000000000000111011000110 = .ok (.cmpGt .e3 .e2) := by decide

/-- COND 100, RB 01, RA 00. -/
theorem test_decode_cmpLe : decode 0b00000000000000000001000100000110 = .ok (.cmpLe .e0 .e1) := by decide

/-- COND 101, RB 01, RA 00. -/
theorem test_decode_cmpGe : decode 0b00000000000000000001010100000110 = .ok (.cmpGe .e0 .e1) := by decide

/-- Illegal words of 95_test_vectors.md, sections 2.1 to 2.6. -/
theorem test_decode_illegal :
    decode 0x00000000 = .error .reservedOp ∧ decode 0x00000007 = .error .reservedOp
      ∧ decode 0x0000000F = .error .reservedOp ∧ decode 0x00001806 = .error .reservedCond
      ∧ decode 0x00001C06 = .error .reservedCond ∧ decode 0x08000001 = .error .mustBeZero
      ∧ decode 0x10000002 = .error .mustBeZero ∧ decode 0x00000402 = .error .mustBeZero
      ∧ decode 0x00002015 = .error .mustBeZero ∧ decode 0x00000125 = .error .mustBeZero
      ∧ decode 0x00000016 = .error .mustBeZero := by decide

theorem test_decodeTableWord : decodeTableWord 32 0x002C08C1 = some (.lde .e0 2 11 3)
    ∧ decodeTableWord 32 0 = none := by decide

/-! ## The commands -/

/-- 95 section 2.1: `LDE E2, 0x00, 0x000, 0` on the reset state changes nothing of E2 but VALID, and sets that. -/
theorem test_lde_zero_is_valid : (afterWord 0x00000021 State.reset).map (·.regRead 0x18) = some 0x80000000 := by decide

/-- 95 section 2.1: COEF at or above 2^CHAR is stored unchanged; ELEM3 reads 0x800B03FF. -/
theorem test_lde_stores : (afterWord 0x002FFCF1 State.reset).map (·.regRead 0x1C) = some 0x800B03FF := by decide

/-- 95 section 2.1: CHAR 9 raises 1/1 and E0 is unchanged. -/
theorem test_lde_charRange : errorAfter (.lde .e0 5 0x00B 9) State.reset = some (true, 1, 1, 0x002C1641) := by decide

/-- 95 S6, and section 2.2: different fields keep the first operand's MOD and CHAR. -/
theorem test_add : e2After (.add .e2 .e0 .e1) (two (el 0x14 0x11B 8) (el 0x44 0x11B 8)) = some (el 0x50 0x11B 8)
    ∧ e2After (.add .e2 .e0 .e1) (two (el 0x05 0x00B 3) (el 0xFF 0x11B 8)) = some (el 0xFA 0x00B 3) := by decide

/-- 95 P7: the second operand was never written. -/
theorem test_add_uninit :
    errorAfter (.add .e1 .e0 .e2) (two (el 1 0x00B 3) (el 1 0x00B 3)) = some (true, 4, 2, 0x00000212) := by decide

/-- 95 section 2.2, a minus a, and the destination is also both sources. -/
theorem test_sub : (nextOf (exec (.sub .e0 .e0 .e0) (two (el 0x57 0x11B 8) (el 0 0 0)))).map (·.elem .e0)
    = some (el 0x00 0x11B 8) := by decide

/-- 95 S1, S2 and section 2.3.2 (unreduced operands, a MOD with bit n clear). -/
theorem test_mul : e2After (.mul .e2 .e0 .e1) (two (el 0x57 0x11B 8) (el 0x83 0x11B 8)) = some (el 0xC1 0x11B 8)
    ∧ gfmul 0x57 0x13 0x11B 8 = 0xFE ∧ gfmul 0xFF 0xFF 0x00B 3 = 3 ∧ gfmul 5 7 0x003 3 = 6
    ∧ gfmul 0x04 0x02 0x100 3 = 0 ∧ gfmul 1 1 0x003 1 = 1 := by decide

/-- R139, second trace: product, multiplier, multiplicand after each of the three iterations. -/
theorem test_mul_trace :
    (List.range 4).map (fun k => ((mulIteration 0x00B 3)^[k] (mulStart 5 7 3)).product) = [0, 5, 4, 6]
      ∧ (List.range 4).map (fun k => ((mulIteration 0x00B 3)^[k] (mulStart 5 7 3)).multiplier) = [7, 3, 1, 0]
      ∧ (List.range 4).map (fun k => ((mulIteration 0x00B 3)^[k] (mulStart 5 7 3)).multiplicand) = [5, 1, 2, 4] := by
  decide

/-- R249: 8 iterations, and 1 with the early exit. -/
theorem test_mul_iterations : (mulLoop 0x11B 8 8 (mulStart 0x57 0x83 8)).iteration = 8
    ∧ (mulLoop 0x00B 3 3 (mulStart 4 1 3)).iteration = 1 := by decide

/-- 95 section 2.3.3: MOD_ZERO comes before CHAR_MISMATCH, and MOD_MISMATCH before CHAR_ZERO. -/
theorem test_mul_order :
    errorAfter (.mul .e2 .e0 .e1) (two (el 3 0 3) (el 3 0 4)) = some (true, 1, 4, 0x00000124)
      ∧ errorAfter (.mul .e2 .e0 .e1) (two (el 3 0x00B 3) (el 3 0x00D 0)) = some (true, 1, 2, 0x00000124) := by decide

/-- 95 section 2.5: GF(2^3) inverses, an unreduced operand, and the reducible modulus (x+1)^2. -/
theorem test_inv : e2After (.inv .e2 .e0) (two (el 0x0A 0x00B 3) (el 0 0 0)) = some (el 5 0x00B 3)
    ∧ invSearch 4 0x00B 3 = some 7 ∧ invSearch 2 0x005 2 = some 2 ∧ invSearch 9 0x013 4 = some 2 := by decide

/-- 95 S3: the inverse of 0x53 under 0x11B, after 202 candidates. -/
theorem test_inv_aes : invSearch 0x53 0x11B 8 = some 0xCA := by decide

/-- 95 section 2.5 and P6: no inverse, and MOD_ZERO checked before CHAR_ZERO. -/
theorem test_inv_errors :
    errorAfter (.inv .e3 .e1) (two (el 0 0 0) (el 3 0x005 2)) = some (true, 2, 0, 0x00000075)
      ∧ errorAfter (.inv .e1 .e0) (two (el 0 0 0) (el 0 0 0)) = some (true, 1, 4, 0x00000015) := by decide

/-- R157: equal COEF under different fields. -/
theorem test_cmpEq : cmpfAfter (.cmpEq .e0 .e1) (two (el 5 0x00B 3) (el 5 0x11B 8)) = some true
    ∧ cmpfAfter (.cmpEq .e0 .e1) (two (el 9 0x00B 3) (el 1 0x00B 3)) = some false := by decide

theorem test_cmpNe : cmpfAfter (.cmpNe .e0 .e1) (two (el 5 0x00B 3) (el 6 0x00B 3)) = some true
    ∧ cmpfAfter (.cmpNe .e0 .e0) (two (el 5 0x00B 3) (el 6 0x00B 3)) = some false := by decide

/-- Unsigned: 0x00 < 0xFF and not the other way. -/
theorem test_cmpLt : cmpfAfter (.cmpLt .e0 .e1) (two (el 0 0x11B 8) (el 0xFF 0x11B 8)) = some true
    ∧ cmpfAfter (.cmpLt .e1 .e0) (two (el 0 0x11B 8) (el 0xFF 0x11B 8)) = some false := by decide

theorem test_cmpGt : cmpfAfter (.cmpGt .e0 .e1) (two (el 0xC1 0x11B 8) (el 0xFE 0x11B 8)) = some false
    ∧ cmpfAfter (.cmpGt .e1 .e0) (two (el 0xC1 0x11B 8) (el 0xFE 0x11B 8)) = some true := by decide

theorem test_cmpLe : cmpfAfter (.cmpLe .e0 .e1) (two (el 7 0x00B 3) (el 7 0x00D 3)) = some true
    ∧ cmpfAfter (.cmpLe .e1 .e0) (two (el 7 0x00B 3) (el 8 0x00D 3)) = some false := by decide

theorem test_cmpGe : cmpfAfter (.cmpGe .e0 .e1) (two (el 0 0x00B 3) (el 1 0x00B 3)) = some false
    ∧ cmpfAfter (.cmpGe .e0 .e0) (two (el 0 0x00B 3) (el 1 0x00B 3)) = some true := by decide

/-! ## The sequencer and the host -/

/-- 95 section 2.6: the all-zero word raises 3/1 and ERRCMD reads 0; BUSY is clear after the commit. -/
theorem test_illegal_word : (afterWord 0 State.reset).map (fun t => (t.regRead 0x04, t.regRead 0x08, t.pending))
    = some (0x00000132, 0, none) := by decide

/-- 95 P8: the first write is accepted (STATUS 1), the second dropped (STATUS 9). -/
theorem test_issue_hazard :
    (State.reset.regWrite 0 0x002C08C1).regRead 0x04 = 0x00000001
      ∧ ((State.reset.regWrite 0 0x002C08C1).regWrite 0 0x00000015).regRead 0x04 = 0x00000009
      ∧ ((State.reset.regWrite 0 0x002C08C1).regWrite 0 0x00000015).pending = some 0x002C08C1 := by decide

/-- 95 P6's last command, on its state: STATUS 0x00007022 and ERRCMD the word. -/
theorem test_status_after_error :
    (afterWord 0x000000B5 ((two (el 2 5 2) (el 2 5 2)).setElem .e2 (el 3 5 2))).map
      (fun t => (t.regRead 0x04, t.regRead 0x08, t.regRead 0x18)) = some (0x00007022, 0x000000B5, 0x80050203) := by
  decide

/-- R54: byte 3 of ELEM0 = 0x800B0302 lies at the highest address. -/
theorem test_lanes : (List.range 4).map (fun k => (State.reset.setElem .e0 (el 2 0x00B 3)).laneByte (0x10 + k))
    = [0x02, 0x03, 0x0B, 0x80] := by decide

/-- A host read takes one turn, returns the register, and leaves the pending command for the turn after it. -/
theorem test_read_while_busy :
    step ((State.reset.setElem .e1 (el 0x57 0x11B 8)).regWrite 0 0x15 |> fun s =>
        { s with turns := [.host (.memRead (Config.base + 0x14) 4)] })
      = .next { (State.reset.setElem .e1 (el 0x57 0x11B 8)).regWrite 0 0x15 with returned := [0x811B0857] } := by
  simp only [step, State.nextTurn, runTurn, hostTurn, Access.place, windowOffset_base_add (off := 0x14) (by decide)]
  rfl

/-- The state right after reset is coherent, so the invariant is not empty. -/
theorem test_reset_coherent : State.reset.Coherent := by decide

/-! ## Witnesses: a state and operands that meet the hypotheses of each statement -/

/-- The state in which the sequencer has the turn and the word w is pending. -/
def pending (w : Word) : State := State.reset.withPending w

/-- The reset state with the host's turn next. -/
def hostNext (a : Access) : State := { State.reset with turns := [.host a] }

/-- The GF(2^3) pair of 95 P1: E0 = 2 and E1 = 5, inverses of each other. -/
def pair : State := two (el 2 0x00B 3) (el 5 0x00B 3)

theorem witness_EncodeOfDecode : decode 0x00000015 = .ok (.inv .e1 .e0) := by decide

theorem witness_DecodeIsTheMatchingRow :
    (0x000003F2#32 &&& rowMask .add = rowMatch .add) ∧ ∀ c : Command, 0#32 &&& rowMask c ≠ rowMatch c := by
  refine ⟨by decide, fun c => ?_⟩
  cases c with
  | cmp cc => cases cc <;> decide
  | _ => decide

theorem witness_AssemblerFollowsFormulas :
    (AsmLine.lde 3 255 511 15).wellFormed = true ∧ (AsmLine.cmp .ge 3 3).wellFormed = true
      ∧ (AsmLine.lde 3 256 511 15).wellFormed = false := by decide

theorem witness_StepRunsDecodedCommand : (pending 0x122).nextTurn = .sequencer ∧ (pending 0x122).pending = some 0x122
    ∧ decode 0x122 = .ok (.add .e2 .e0 .e1) := by decide

theorem witness_IllegalWordTakesError :
    (∀ w, (pending w).nextTurn = .sequencer ∧ (pending w).pending = some w) ∧ decode 7 = .error .reservedOp
      ∧ decode 0x1806 = .error .reservedCond ∧ decode 0x402 = .error .mustBeZero :=
  ⟨fun _ => ⟨rfl, rfl⟩, by decide, by decide, by decide⟩

theorem witness_CommitWritesResultOrErrorRecord :
    ∀ w, (pending w).nextTurn = .sequencer ∧ (pending w).pending = some w := fun _ => ⟨rfl, rfl⟩

theorem witness_ExecuteReadsOnlyElements : pair.elems = (pair.setCmpf true).elems ∧ pair ≠ pair.setCmpf true := by
  decide

theorem witness_IdleSequencerKeepsState :
    State.reset.nextTurn = .sequencer ∧ State.reset.pending = none ∧ State.reset.turns = [] := by decide

theorem witness_CmdWriteAcceptedOrDropped :
    (hostNext (.memWrite Config.base 4 0x15)).nextTurn = .host (.memWrite Config.base 4 0x15)
      ∧ (hostNext (.memWrite Config.base 4 0x15)).status.busy = false
      ∧ (hostNext (.memWrite Config.base 4 0x15)).status.err = false
      ∧ ((hostNext (.memWrite Config.base 4 0x15)).commitError 0 .reservedOp).nextTurn
          = .host (.memWrite Config.base 4 0x15)
      ∧ ((hostNext (.memWrite Config.base 4 0x15)).commitError 0 .reservedOp).status.err = true :=
  ⟨rfl, rfl, rfl, rfl, rfl⟩

theorem witness_ReadsAndIgnoredWrites :
    (hostNext (.memRead (Config.base + 0x1C) 4)).nextTurn = .host (.memRead (Config.base + 0x1C) 4)
      ∧ (hostNext (.memRead (Config.base + 0) 4)).nextTurn = .host (.memRead (Config.base + 0) 4)
      ∧ (hostNext (.memWrite (Config.base + 4) 4 1)).nextTurn = .host (.memWrite (Config.base + 4) 4 1) :=
  ⟨rfl, rfl, rfl⟩

theorem witness_ElementViewLayout :
    ((ElemReg.e3, 0x1C) : ElemReg × Nat) ∈ [(.e0, 0x10), (.e1, 0x14), (.e2, 0x18), (ElemReg.e3, 0x1C)] := by decide

/-- A byte access, a misaligned one at the end of the window, the last admitted one, and the first address after it. -/
theorem witness_UnadmittedAccessHasNoStep :
    (∀ a, (hostNext a).nextTurn = .host a)
      ∧ (Config.base ≤ Config.base + 0x1F ∧ Config.base + 0x1F < Config.base + 0x20
        ∧ (Access.memRead (Config.base + 0x1F) 1).place.2 ≠ 4)
      ∧ (Config.base + 0x1E - Config.base) % 4 ≠ 0 ∧ (Config.base + 0x1C - Config.base) % 4 = 0
      ∧ Config.base + 0x20 ≤ (Access.memRead (Config.base + 0x20) 4).place.1 := by
  refine ⟨fun _ => rfl, ⟨by omega, by omega, by decide⟩, by omega, by omega, Nat.le_refl _⟩

theorem witness_HostTurnKeepsResults :
    (hostNext (.memRead (Config.base + 4) 4)).nextTurn = .host (.memRead (Config.base + 4) 4)
      ∧ step (hostNext (.memRead (Config.base + 4) 4)) = .next { State.reset with returned := [0] } := by
  refine ⟨rfl, ?_⟩
  simp only [hostNext, step, State.nextTurn, runTurn, hostTurn, Access.place,
    windowOffset_base_add (off := 4) (by decide)]
  rfl

theorem witness_PollReadsZeroOnlyWhenCommitted :
    (hostNext (.memRead (Config.base + 4) 4)).Coherent
      ∧ (hostNext (.memRead (Config.base + 0x04) 4)).nextTurn = .host (.memRead (Config.base + 0x04) 4)
      ∧ ({ State.reset with returned := [0] } : State).returned.head? = some 0 := by
  refine ⟨?_, rfl, rfl⟩
  exact ⟨rfl, fun _ => rfl, fun _ => ⟨rfl, rfl, rfl⟩, fun h => (nomatch h), by decide, by decide⟩

theorem witness_ResetLeavesStatedValues :
    ({ pending 0x15 with turns := [.reset] } : State).nextTurn = .reset := by decide

theorem witness_LdeStoresAsGiven : (8#4).toNat ≤ 8 ∧ 9 ≤ (9#4).toNat ∧ 9 ≤ (15#4).toNat := by decide

theorem witness_AddSubResult : (pair.elem .e0).valid = true ∧ (pair.elem .e1).valid = true := by decide

theorem witness_UninitialisedOperandRaises :
    firstSource (.inv .e0 .e2) = some .e2 ∧ (pair.elem .e2).valid = false
      ∧ secondSource (.cmpGe .e0 .e3) = some .e3 ∧ (pair.elem .e0).valid = true ∧ (pair.elem .e3).valid = false := by
  decide

theorem witness_MulResult : MulReady pair .e0 .e1 ∧ MulReady pair .e0 .e0 := by
  unfold MulReady; decide

/-- One pair of operands for each failing check. -/
theorem witness_MulChecksInOrder :
    let s := two (el 3 0x00B 3) (el 3 0x00D 3)
    let z := two (el 3 0 3) (el 3 0 4)
    let c := two (el 3 0x00B 3) (el 3 0x00B 4)
    let o := two (el 3 0x00B 0) (el 3 0x00B 0)
    (s.elem .e0).mod ≠ (s.elem .e1).mod ∧ (z.elem .e0).mod = (z.elem .e1).mod ∧ (z.elem .e0).mod = 0
      ∧ (c.elem .e0).mod = (c.elem .e1).mod ∧ (c.elem .e0).mod ≠ 0 ∧ (c.elem .e0).char ≠ (c.elem .e1).char
      ∧ (o.elem .e0).char = (o.elem .e1).char ∧ (o.elem .e0).mod ≠ 0 ∧ (o.elem .e0).char = 0 := by decide

theorem inverse_of_two : IsInverse 2 0x00B 3 5 := by unfold IsInverse; decide

/-- 5 is the one candidate below 8 whose product with 2 is 1 (95 section 2.5). -/
theorem only_inverse_of_two : ∀ d, IsInverse 2 0x00B 3 d → (5 : Coef).toNat ≤ d.toNat := by
  intro d h
  obtain ⟨h1, h2, h3⟩ := h
  by_contra hlt
  have : d.toNat < 5 := by simpa using hlt
  have e : d = BitVec.ofNat 8 d.toNat := by simp
  rw [e] at h3
  interval_cases d.toNat <;> revert h3 <;> decide

theorem witness_InvWritesSmallestInverse :
    InvReady pair .e0 ∧ IsInverse (pair.elem .e0).coef (pair.elem .e0).mod (pair.elem .e0).char.toNat 5
      ∧ ∀ d, IsInverse (pair.elem .e0).coef (pair.elem .e0).mod (pair.elem .e0).char.toNat d →
          (5 : Coef).toNat ≤ d.toNat :=
  ⟨by unfold InvReady; decide, inverse_of_two, only_inverse_of_two⟩

/-- Zero has no inverse. -/
theorem witness_InvRaisesNoInverse :
    InvReady (two (el 0 0x00B 3) (el 1 0x00B 3)) .e0 ∧ ∀ d, ¬ IsInverse 0 0x00B 3 d := by
  refine ⟨by unfold InvReady; decide, fun d h => ?_⟩
  obtain ⟨h1, h2, h3⟩ := h
  have e : d = BitVec.ofNat 8 d.toNat := by simp
  rw [e] at h3
  interval_cases d.toNat <;> revert h3 <;> decide

theorem witness_InvChecksInOrder :
    ((two (el 5 0 3) (el 5 0x00B 0)).elem .e0).mod = 0 ∧ ((two (el 5 0 3) (el 5 0x00B 0)).elem .e1).mod ≠ 0
      ∧ ((two (el 5 0 3) (el 5 0x00B 0)).elem .e1).char = 0 := by decide

theorem witness_InvThenMulGivesOne : ElemReg.e1 ≠ ElemReg.e0 ∧ InvReady pair .e0
    ∧ IsInverse (pair.elem .e0).coef (pair.elem .e0).mod (pair.elem .e0).char.toNat 5 :=
  ⟨by decide, by unfold InvReady; decide, inverse_of_two⟩

theorem witness_CompareResult : (pair.elem .e0).valid = true ∧ (pair.elem .e1).valid = true := by decide

theorem witness_ComparisonComplements : (pair.elem .e1).valid = true ∧ (pair.elem .e0).valid = true := by decide

theorem witness_WrittenElementsAreReduced :
    (3#4).toNat ≤ 8 ∧ (7#8).toNat < 2 ^ (3#4).toNat ∧ Reduced (pair.elem .e0)
      ∧ (pair.elem .e1).coef.toNat < 2 ^ (pair.elem .e0).char.toNat ∧ MulReady pair .e0 .e1 ∧ InvReady pair .e0
      ∧ (∃ d, IsInverse (pair.elem .e0).coef (pair.elem .e0).mod (pair.elem .e0).char.toNat d)
      ∧ (nextOf (exec (.mul .e2 .e0 .e1) pair)).isSome ∧ (nextOf (exec (.inv .e2 .e0) pair)).isSome
      ∧ (nextOf (exec (.add .e2 .e0 .e1) pair)).isSome :=
  ⟨by decide, by decide, by unfold Reduced; decide, by decide, by unfold MulReady; decide,
    by unfold InvReady; decide, ⟨5, inverse_of_two⟩, by decide, by decide, by decide⟩

theorem witness_ElementCommandFrame : destination (.mul .e2 .e0 .e1) = some .e2
    ∧ (nextOf (exec (.mul .e2 .e0 .e1) pair)).isSome ∧ (nextOf (exec (.mul .e2 .e0 .e3) pair)).isSome := by decide

theorem witness_CompareCommandFrame : destination (.cmpLt .e0 .e1) = none
    ∧ (nextOf (exec (.cmpLt .e0 .e1) pair)).isSome ∧ (nextOf (exec (.cmpLt .e0 .e3) pair)).isSome := by decide

theorem witness_ValidOnlyClearedByReset :
    (∃ t, step { pending 0x15 with turns := [.reset] } = .next t)
      ∧ (pending 0x002C08C1).nextTurn ≠ .reset ∧ secondSource (.add .e2 .e0 .e3) = some .e3
      ∧ (pair.elem .e3).valid = false ∧ ∃ t, step (pending 0x002C08C1) = .next t :=
  ⟨⟨_, rfl⟩, by decide, by decide, by decide, ⟨_, rfl⟩⟩

/-- The commit of `LDE E2, 0x00, 0x000, 0`, whose record differs from the reset value in VALID alone. -/
theorem witness_ValidOnlyClearedByReset_commit :
    (pending 0x21).nextTurn = .sequencer ∧ (pending 0x21).pending = some 0x21
      ∧ decode 0x21 = .ok (.lde .e2 0 0 0) ∧ destination (.lde .e2 0 0 0) = some .e2 := by decide

/-- CMP.EQ E0, E1 pending on valid operands. -/
theorem witness_CmpfWrittenOnlyByCompare :
    (pair.withPending 0x106).nextTurn = .sequencer ∧ decode 0x106 = .ok (cmpInstr .eq .e0 .e1)
      ∧ ((pair.withPending 0x106).elem .e0).valid = true ∧ ((pair.withPending 0x106).elem .e1).valid = true
      ∧ ∃ t, step (pair.withPending 0x106) = .next t :=
  ⟨by decide, by decide, by decide, by decide, ⟨_, rfl⟩⟩

theorem witness_StepKeepsCoherent : (pending 0x15).Coherent ∧ ∃ t, step (pending 0x15) = .next t :=
  ⟨by decide, ⟨_, rfl⟩⟩

theorem witness_BusyExactlyWhilePending :
    BusyIsPending (pending 0x15) ∧ (∃ t, step (pending 0x15) = .next t) ∧ (pending 0x15).pending ≠ none
      ∧ (pending 0x15).nextTurn = .sequencer ∧ BusyIsPending (hostNext (.memWrite Config.base 4 0x15))
      ∧ (hostNext (.memWrite Config.base 4 0x15)).pending = none :=
  ⟨by decide, ⟨_, rfl⟩, by decide, by decide, rfl, rfl⟩

theorem witness_HaltedUntilReset :
    (State.reset.commitError 0 .reservedOp).Coherent ∧ (State.reset.commitError 0 .reservedOp).status.err = true
      ∧ (State.reset.commitError 0 .reservedOp).nextTurn ≠ .reset
      ∧ (∃ t, step { pending 0x15 with turns := [.reset] } = .next t)
      ∧ ∃ t, step (State.reset.commitError 0 .reservedOp) = .next t :=
  ⟨by decide, by decide, by decide, ⟨_, rfl⟩, ⟨_, rfl⟩⟩

/-- A CMD write on the halted block, which is dropped. -/
def haltedWrite : State := (hostNext (.memWrite Config.base 4 0x15)).commitError 0 .reservedOp

theorem witness_DropSetOnlyByDroppedWrite_halted :
    haltedWrite.nextTurn = .host (.memWrite Config.base 4 0x15) ∧ haltedWrite.status.err = true
      ∧ step haltedWrite = .next (haltedWrite.popTurn.offerCommand 0x15) := by
  refine ⟨rfl, rfl, ?_⟩
  have h : windowOffset Config.base = some 0 := windowOffset_base_add (off := 0) (by decide)
  have e : haltedWrite.nextTurn = .host (.memWrite Config.base 4 0x15) := rfl
  simp only [step, e, runTurn, hostTurn, Access.place, h]
  rfl

theorem witness_DropSetOnlyByDroppedWrite :
    (hostNext (.memWrite Config.base 4 0x15)).nextTurn ≠ .reset
      ∧ ∃ t, step (hostNext (.memWrite Config.base 4 0x15)) = .next t := by
  refine ⟨fun h => (nomatch h), (hostNext (.memWrite Config.base 4 0x15)).popTurn.offerCommand 0x15, ?_⟩
  have h : windowOffset Config.base = some 0 := windowOffset_base_add (off := 0) (by decide)
  simp only [hostNext, step, State.nextTurn, runTurn, hostTurn, Access.place, h]
  rfl

/-- A host read of STATUS is an admitted access, and the only turn of this list. -/
theorem read_status_safe : ∀ t ∈ [Turn.host (.memRead (Config.base + 4) 4)], t.Safe := by
  intro t ht a ha
  obtain rfl := List.mem_singleton.mp ht
  cases ha
  exact ⟨Nat.le_add_right _ _, Nat.add_lt_add_left (by decide) _, rfl, by simp [Access.place]⟩

/-- An accepted INV, and a host read before the sequencer's turn. -/
theorem witness_PendingCommandCommits :
    let s : State := { pair.withPending 0x15 with turns := [.host (.memRead (Config.base + 4) 4)] }
    (∀ t ∈ s.turns, t.Safe) ∧ s.pending = some 0x15 ∧ s.status.busy = true ∧ Turn.reset ∉ s.turns :=
  ⟨read_status_safe, rfl, rfl, by simp⟩

/-- The bounds of the arithmetic statements at both ends, and reduced operands at the top of the range. -/
theorem witness_Gfmul : 1 ≤ 1 ∧ 8 ≤ 8 ∧ (255#8).toNat < 2 ^ 8 ∧ deg (0x11B#9).toNat = 8 := by decide

theorem witness_InverseIsUnique : IsInverse 2 0x00B 3 5 ∧ IsInverse 0x0A 0x00B 3 5 := by
  unfold IsInverse; decide

theorem witness_NoInverseOfZero : (8#8).toNat % 2 ^ 3 = 0 ∧ invSearch 8 0x00B 3 = none := by decide

end Sys2Proof.Tests
end

/-! ## Words and their commands -/

namespace Sys2Proof

/-- The index of the register a 2-bit index names is that index (R84). -/
@[simp] theorem ElemReg.toBits_ofBits (b : BitVec 2) : (ElemReg.ofBits b).toBits = b := by
  revert b; decide

/-- A word whose RSV of format R is 0 is put together from its other fields (R82). -/
theorem formatR_of_fields {w : Word} (h : rsvFieldR w = 0) :
    formatR (condField w) (rbField w) (raField w) (rdField w) (opField w) = w := by
  unfold formatR
  rw [show (0#19) = rsvFieldR w from h.symm]
  unfold rsvFieldR condField rbField raField rdField opField
  simp only [BitVec.extractLsb'_append_extractLsb'_eq_extractLsb', BitVec.extractLsb'_eq_self]

/-- A word of opcode 1 whose RSV of format L is 0 is put together from its other fields (R83). -/
theorem formatL_of_fields {w : Word} (h : rsvFieldL w = 0) (hop : opField w = 0x1) :
    formatL (modField w) (coefField w) (charField w) (rdField w) = w := by
  unfold formatL
  rw [show (0#5) = rsvFieldL w from h.symm, show (0x1#4) = opField w from hop.symm]
  unfold rsvFieldL modField coefField charField rdField opField
  simp only [BitVec.extractLsb'_append_extractLsb'_eq_extractLsb', BitVec.extractLsb'_eq_self]

/-- The word of the CMP command that a COND value below 6 selects (R86). -/
theorem encode_compareCommand {c : BitVec 3} (h6 : c ≠ 6) (h7 : c ≠ 7) (ra rb : ElemReg) :
    encode (compareCommand c ra rb) = formatR c rb.toBits ra.toBits 0 0x6 := by
  have hc : c = 0 ∨ c = 1 ∨ c = 2 ∨ c = 3 ∨ c = 4 ∨ c = 5 := by revert c; decide
  rcases hc with rfl | rfl | rfl | rfl | rfl | rfl <;> rfl

/-- What a word that decodes to a command has passed: every check of R88. -/
theorem decode_eq_ok {w : Word} {i : Instr} (h : decode w = .ok i) :
    opReserved w = false ∧ condReserved w = false ∧ mustBeZeroSet w = false ∧ selectCommand w = i := by
  unfold decode at h
  split_ifs at h with hop hcond hzero
  exact ⟨by simpa using hop, by simpa using hcond, by simpa using hzero, Except.ok.inj h⟩

/-- A word that decodes is the word of its command (R87, D9). -/
theorem encode_of_decode {w : Word} {i : Instr} (h : decode w = .ok i) : encode i = w := by
  obtain ⟨hop, hcond, hzero, rfl⟩ := decode_eq_ok h
  have hops : opField w = 1 ∨ opField w = 2 ∨ opField w = 3 ∨ opField w = 4 ∨ opField w = 5 ∨ opField w = 6 := by
    revert hop; unfold opReserved; generalize opField w = op; revert op; decide
  rcases hops with e | e | e | e | e | e
  · have hrsv : rsvFieldL w = 0 := by simpa [mustBeZeroSet, e] using hzero
    simpa [selectCommand, e, encode] using formatL_of_fields hrsv e
  · obtain ⟨hrsv, hc⟩ : rsvFieldR w = 0 ∧ condField w = 0 := by simpa [mustBeZeroSet, e] using hzero
    simpa [selectCommand, e, encode, hc] using formatR_of_fields hrsv
  · obtain ⟨hrsv, hc⟩ : rsvFieldR w = 0 ∧ condField w = 0 := by simpa [mustBeZeroSet, e] using hzero
    simpa [selectCommand, e, encode, hc] using formatR_of_fields hrsv
  · obtain ⟨hrsv, hc⟩ : rsvFieldR w = 0 ∧ condField w = 0 := by simpa [mustBeZeroSet, e] using hzero
    simpa [selectCommand, e, encode, hc] using formatR_of_fields hrsv
  · obtain ⟨⟨hrsv, hc⟩, hrb⟩ : (rsvFieldR w = 0 ∧ condField w = 0) ∧ rbField w = 0 := by
      simpa [mustBeZeroSet, e] using hzero
    simpa [selectCommand, e, encode, hc, hrb] using formatR_of_fields hrsv
  · obtain ⟨hrsv, hrd⟩ : rsvFieldR w = 0 ∧ rdField w = 0 := by simpa [mustBeZeroSet, e] using hzero
    obtain ⟨h6, h7⟩ : condField w ≠ 6 ∧ condField w ≠ 7 := by simpa [condReserved, e] using hcond
    simpa [selectCommand, e, encode_compareCommand h6 h7, hrd] using formatR_of_fields hrsv

end Sys2Proof

/-! ## What a step can do: one case for each way the state changes -/

namespace Sys2Proof.Machine

open Sys2Proof Sys2Proof.Claims

/-- A host access that offers a word as a command: a 32-bit write of v to CMD (R56). -/
abbrev cmdWrite (v : Word) : Turn := .host (.memWrite Config.base 4 v)

/-- The destination register of a command took a valid record whose CHAR is legal or a valid register's (R24, R25, R26). -/
def ElementWritten (s t : State) : Prop :=
  ∃ w i rd e, s.nextTurn = .sequencer ∧ s.pending = some w ∧ decode w = .ok i ∧ destination i = some rd ∧
    e.valid = true ∧ (e.char.toNat ≤ Config.nMax ∨ ∃ ra, (s.elem ra).valid = true ∧ e.char = (s.elem ra).char) ∧
    t = (s.popTurn.setElem rd e).retire

/-- A comparison of valid operands committed (R32). -/
def CmpfWritten (s t : State) : Prop :=
  ∃ w cc ra rb, s.nextTurn = .sequencer ∧ s.pending = some w ∧ decode w = .ok (cmpInstr cc ra rb) ∧
    (s.elem ra).valid = true ∧ (s.elem rb).valid = true ∧
    t = (s.popTurn.setCmpf (relationHolds cc (s.elem ra).coef (s.elem rb).coef)).retire

/-- Everything a step that answers a next state can have done, whosever turn it was. -/
inductive StepEffect (s t : State) : Prop
  /-- the sequencer had nothing to execute (R218) -/
  | idle (turn : s.nextTurn = .sequencer) (empty : s.pending = none) (eq : t = s.popTurn)
  /-- the sequencer committed an error of the pending word (R207) -/
  | error (w : Word) (c : ErrorCause) (turn : s.nextTurn = .sequencer) (pend : s.pending = some w)
      (eq : t = (s.popTurn.commitError w c).retire)
  | element (written : ElementWritten s t)
  | cmpf (written : CmpfWritten s t)
  /-- the host read a register of the window (R55) -/
  | read (v : Word) (turn : ∃ a, s.nextTurn = .host a) (other : ∀ u, s.nextTurn ≠ cmdWrite u)
      (eq : t = s.popTurn.giveHost v)
  /-- the host wrote a register that ignores writes (R55) -/
  | ignored (turn : ∃ a, s.nextTurn = .host a) (other : ∀ u, s.nextTurn ≠ cmdWrite u) (eq : t = s.popTurn)
  /-- a CMD write was accepted (R56) -/
  | accepted (v : Word) (turn : s.nextTurn = cmdWrite v) (idle : s.status.busy = false) (running : s.status.err = false)
      (eq : t = { s.popTurn with pending := some v, status := { s.status with busy := true } })
  /-- a CMD write was dropped (R33, R56) -/
  | dropped (v : Word) (turn : s.nextTurn = cmdWrite v) (refused : s.status.busy = true ∨ s.status.err = true)
      (eq : t = { s.popTurn with status := { s.status with drop := true } })
  /-- the block was reset (R240) -/
  | reset (turn : s.nextTurn = .reset) (eq : t = s.popTurn.resetBlock)

/-- A write at an offset of the window other than CMD's is ignored (R55). -/
theorem regWrite_of_ne_zero (s : State) {off : Nat} (h0 : off ≠ 0) (v : Word) : s.regWrite off v = s := by
  have hreg : windowReg off ≠ .cmd := by
    unfold windowReg; split <;> simp_all
  unfold State.regWrite
  split <;> simp_all

/-- What a host turn that answers a next state did. -/
theorem stepEffect_of_host {s t : State} {a : Access} (turn : s.nextTurn = .host a)
    (h : hostTurn a s.popTurn = .next t) : StepEffect s t := by
  obtain ⟨off, hplace, -, -, rfl⟩ := hostTurn_admitted h
  cases a with
  | memRead addr n => exact .read _ ⟨_, turn⟩ (by simp [turn]) rfl
  | memWrite addr n v =>
    obtain ⟨rfl, rfl⟩ : addr = Config.base + off ∧ n = 4 := by simpa [Access.place] using hplace
    by_cases h0 : off = 0
    · subst h0
      rcases offerCommand_cases s.popTurn v with ⟨hb, he, eq⟩ | ⟨hr, eq⟩
      · exact .accepted v turn hb he eq
      · exact .dropped v turn hr eq
    · exact .ignored ⟨_, turn⟩ (by simp [turn, h0]) (regWrite_of_ne_zero _ h0 v)

/-- What a sequencer's turn that answers a next state did. -/
theorem stepEffect_of_sequencer {s t : State} (turn : s.nextTurn = .sequencer)
    (h : sequencerTurn s.popTurn = .next t) : StepEffect s t := by
  rcases sequencerTurn_cases s.popTurn with ⟨hp, e⟩ | ⟨w, k, hp, -, e⟩ | ⟨w, i, hp, hd, e⟩ <;> rw [e] at h
  · cases h; exact .idle turn hp rfl
  · cases h; exact .error w _ turn hp rfl
  · obtain ⟨u, hu, rfl⟩ := retireNext_eq_next h
    rcases exec_cases i s.popTurn with
      ⟨c, e⟩ | ⟨rd, x, hdest, hv, hchar, e⟩ | ⟨cc, ra, rb, rfl, ha, hb, e⟩ <;> rw [e] at hu <;> cases hu
    · rw [encode_of_decode hd]
      exact .error w c turn hp rfl
    · exact .element ⟨w, i, rd, x, turn, hp, hd, hdest, hv, hchar, rfl⟩
    · exact .cmpf ⟨w, cc, ra, rb, turn, hp, hd, ha, hb, rfl⟩

/-- The one inversion of a step down to what it did to the state. -/
theorem step_effect {s t : State} (h : step s = .next t) : StepEffect s t := by
  rcases step_cases h with ⟨turn, h⟩ | ⟨a, turn, h⟩ | ⟨turn, rfl⟩
  · exact stepEffect_of_sequencer turn h
  · exact stepEffect_of_host turn h
  · exact .reset turn rfl

/-- The sequencer's step on a pending word that decodes runs its command and ends the commit (R57). -/
theorem step_of_command {s : State} {w : Word} {i : Instr} (turn : s.nextTurn = .sequencer)
    (hp : s.pending = some w) (hd : decode w = .ok i) : step s = retireNext (exec i s.popTurn) := by
  simp [step, turn, runTurn, sequencerTurn, hp, executeWord, hd]

/-! ## What a step does to each piece of the state -/

/-- A step keeps the register file, resets it, or writes one command's destination (R25, R26). -/
theorem step_elems {s t : State} (h : step s = .next t) :
    t.elems = s.elems ∨ (s.nextTurn = .reset ∧ t = s.popTurn.resetBlock) ∨ ElementWritten s t := by
  cases step_effect h with
  | element written => exact .inr (.inr written)
  | reset turn eq => exact .inr (.inl ⟨turn, eq⟩)
  | cmpf written => obtain ⟨w, cc, ra, rb, -, -, -, -, -, rfl⟩ := written; exact .inl rfl
  | idle _ _ eq | error _ _ _ _ eq | read _ _ _ eq | ignored _ _ eq | accepted _ _ _ _ eq | dropped _ _ _ eq =>
    subst eq; exact .inl rfl

/-- A written register is the destination with the written record, and the others are as before (R24). -/
theorem elem_of_elementWritten {s t : State} (h : ElementWritten s t) (r : ElemReg) :
    t.elem r = s.elem r ∨
      ((t.elem r).valid = true ∧
        ((t.elem r).char.toNat ≤ Config.nMax ∨
          ∃ ra, (s.elem ra).valid = true ∧ (t.elem r).char = (s.elem ra).char) ∧
        s.nextTurn = .sequencer ∧ ∃ w i, s.pending = some w ∧ decode w = .ok i ∧ destination i = some r) := by
  obtain ⟨w, i, rd, e, turn, hp, hd, hdest, hv, hchar, rfl⟩ := h
  by_cases hr : r = rd
  · subst hr
    simp only [State.retire_elem, State.setElem_elem_same]
    exact .inr ⟨hv, hchar, turn, w, i, hp, hd, hdest⟩
  · exact .inl (State.setElem_elem_other _ _ _ _ hr)

/-- A step keeps the error record, clears it by reset, or records the error of the pending word (R34, R36, R207). -/
theorem step_record {s t : State} (h : step s = .next t) :
    SameErrorRecord s t ∨ (s.nextTurn = .reset ∧ t = s.popTurn.resetBlock) ∨
      ∃ w c, s.nextTurn = .sequencer ∧ s.pending = some w ∧ t = (s.popTurn.commitError w c).retire := by
  cases step_effect h with
  | error w c turn pend eq => exact .inr (.inr ⟨w, c, turn, pend, eq⟩)
  | reset turn eq => exact .inr (.inl ⟨turn, eq⟩)
  | element written => obtain ⟨w, i, rd, e, -, -, -, -, -, -, rfl⟩ := written; exact .inl ⟨rfl, rfl, rfl, rfl⟩
  | cmpf written => obtain ⟨w, cc, ra, rb, -, -, -, -, -, rfl⟩ := written; exact .inl ⟨rfl, rfl, rfl, rfl⟩
  | idle _ _ eq | read _ _ _ eq | ignored _ _ eq | accepted _ _ _ _ eq | dropped _ _ _ eq =>
    subst eq; exact .inl ⟨rfl, rfl, rfl, rfl⟩

/-- A step keeps BUSY, ERR and the pending word, empties PENDING and clears BUSY, or accepts a CMD write (R30, R31). -/
theorem step_command {s t : State} (h : step s = .next t) :
    (t.status.busy = s.status.busy ∧ t.status.err = s.status.err ∧ t.pending = s.pending ∧
      (s.nextTurn = .sequencer → s.pending = none)) ∨
    (t.status.busy = false ∧ t.pending = none) ∨
    (∃ v, s.nextTurn = cmdWrite v ∧ t.status.busy = true ∧ t.status.err = false ∧ t.pending = some v) := by
  cases step_effect h with
  | accepted v turn _ running eq => subst eq; exact .inr (.inr ⟨v, turn, rfl, running, rfl⟩)
  | element written => obtain ⟨w, i, rd, e, -, -, -, -, -, -, rfl⟩ := written; exact .inr (.inl ⟨rfl, rfl⟩)
  | cmpf written => obtain ⟨w, cc, ra, rb, -, -, -, -, -, rfl⟩ := written; exact .inr (.inl ⟨rfl, rfl⟩)
  | error _ _ _ _ eq | reset _ eq => subst eq; exact .inr (.inl ⟨rfl, rfl⟩)
  | idle _ empty eq => subst eq; exact .inl ⟨rfl, rfl, rfl, fun _ => empty⟩
  | read _ turn _ eq | ignored turn _ eq =>
    obtain ⟨a, turn⟩ := turn
    subst eq; exact .inl ⟨rfl, rfl, rfl, by simp [turn]⟩
  | dropped v turn _ eq => subst eq; exact .inl ⟨rfl, rfl, rfl, by simp [turn]⟩

/-- A step keeps CMPF, unless it is a reset or the commit of a comparison (R32). -/
theorem step_cmpf {s t : State} (h : step s = .next t) :
    t.status.cmpf = s.status.cmpf ∨ s.nextTurn = .reset ∨ CmpfWritten s t := by
  cases step_effect h with
  | cmpf written => exact .inr (.inr written)
  | reset turn _ => exact .inr (.inl turn)
  | element written => obtain ⟨w, i, rd, e, -, -, -, -, -, -, rfl⟩ := written; exact .inl rfl
  | idle _ _ eq | error _ _ _ _ eq | read _ _ _ eq | ignored _ _ eq | accepted _ _ _ _ eq | dropped _ _ _ eq =>
    subst eq; exact .inl rfl

/-- A CMD write that comes while BUSY = 1 or ERR = 1 (R33). -/
def RefusedWrite (s : State) : Prop :=
  (s.status.busy = true ∨ s.status.err = true) ∧ ∃ v, s.nextTurn = cmdWrite v

/-- A step keeps DROP, unless it is a reset or drops a CMD write, which sets DROP and nothing else (R33). -/
theorem step_drop {s t : State} (h : step s = .next t) :
    (t.status.drop = s.status.drop ∧ ¬ RefusedWrite s) ∨ s.nextTurn = .reset ∨
      (RefusedWrite s ∧ t = { s.popTurn with status := { s.status with drop := true } }) := by
  have sequencer : s.nextTurn = .sequencer → ¬ RefusedWrite s := by
    rintro turn ⟨-, v, hv⟩; simp [turn] at hv
  have other : (∀ u, s.nextTurn ≠ cmdWrite u) → ¬ RefusedWrite s := fun h ⟨_, v, hv⟩ => h v hv
  cases step_effect h with
  | dropped v turn refused eq => exact .inr (.inr ⟨⟨refused, v, turn⟩, eq⟩)
  | reset turn _ => exact .inr (.inl turn)
  | element written =>
    obtain ⟨w, i, rd, e, turn, -, -, -, -, -, rfl⟩ := written; exact .inl ⟨rfl, sequencer turn⟩
  | cmpf written => obtain ⟨w, cc, ra, rb, turn, -, -, -, -, rfl⟩ := written; exact .inl ⟨rfl, sequencer turn⟩
  | idle turn _ eq | error _ _ turn _ eq => subst eq; exact .inl ⟨rfl, sequencer turn⟩
  | read _ _ hother eq | ignored _ hother eq => subst eq; exact .inl ⟨rfl, other hother⟩
  | accepted v turn idle running eq => subst eq; exact .inl ⟨rfl, by simp [RefusedWrite, idle, running]⟩

end Sys2Proof.Machine

/-! ## The invariant of every step (10_state.md) -/

namespace Sys2Proof.Machine

open Sys2Proof Sys2Proof.Claims

/-- Every step keeps that BUSY says whether a command is pending (R30). -/
theorem step_keeps_busyIsPending {s t : State} (hs : BusyIsPending s) (h : step s = .next t) : BusyIsPending t := by
  unfold BusyIsPending at *
  rcases step_command h with ⟨hb, -, hp, -⟩ | ⟨hb, hp⟩ | ⟨v, -, hb, -, hp⟩
  · rw [hb, hp, hs]
  · simp [hb, hp]
  · simp [hb, hp]

/-- Every step but the commit of an error keeps ERR, and a commit empties PENDING (R31, R209). -/
theorem step_keeps_haltedHasNoCommand {s t : State} (hs : HaltedHasNoCommand s) (h : step s = .next t) :
    HaltedHasNoCommand t := by
  intro halted
  rcases step_command h with ⟨-, he, hp, -⟩ | ⟨-, hp⟩ | ⟨v, -, -, he, -⟩
  · rw [hp, hs (he ▸ halted)]
  · exact hp
  · simp [he] at halted

/-- Only an error, which sets ERR, writes the record (R34, R36). -/
theorem step_keeps_noErrorNoRecord {s t : State} (hs : NoErrorNoRecord s) (h : step s = .next t) :
    NoErrorNoRecord t := by
  intro running
  rcases step_record h with ⟨he, hcode, hsub, hcmd⟩ | ⟨-, rfl⟩ | ⟨w, c, -, -, rfl⟩
  · rw [hcode, hsub, hcmd]; exact hs (he ▸ running)
  · exact ⟨rfl, rfl, rfl⟩
  · cases running

/-- The record a step writes is the row of R201 of its cause. -/
theorem step_keeps_recordIsListed {s t : State} (hs : RecordIsListed s) (h : step s = .next t) :
    RecordIsListed t := by
  intro halted
  rcases step_record h with ⟨he, hcode, hsub, -⟩ | ⟨-, rfl⟩ | ⟨w, c, -, -, rfl⟩
  · rw [hcode, hsub]; exact hs (he ▸ halted)
  · cases halted
  · exact ⟨c, c.mem_all, rfl, rfl⟩

/-- A written CHAR is one LDE accepted or a valid register's (R23). -/
theorem step_keeps_validCharLegal {s t : State} (hs : ValidCharLegal s) (h : step s = .next t) :
    ValidCharLegal t := by
  intro r _ valid
  rcases step_elems h with same | ⟨-, rfl⟩ | written
  · rw [State.elem_congr same] at valid ⊢
    exact hs r (ElemReg.mem_all r) valid
  · simp [Element.reset] at valid
  · rcases elem_of_elementWritten written r with same | ⟨-, legal | ⟨ra, hra, hchar⟩, -⟩
    · rw [same] at valid ⊢
      exact hs r (ElemReg.mem_all r) valid
    · exact legal
    · rw [hchar]
      exact hs ra (ElemReg.mem_all ra) hra

/-- A written register is valid, so one that is not valid was never written since reset (R113). -/
theorem step_keeps_invalidHoldsReset {s t : State} (hs : InvalidHoldsReset s) (h : step s = .next t) :
    InvalidHoldsReset t := by
  intro r _ invalid
  rcases step_elems h with same | ⟨-, rfl⟩ | written
  · rw [State.elem_congr same] at invalid ⊢
    exact hs r (ElemReg.mem_all r) invalid
  · exact State.resetBlock_elem _ r
  · rcases elem_of_elementWritten written r with same | ⟨valid, -⟩
    · rw [same] at invalid ⊢
      exact hs r (ElemReg.mem_all r) invalid
    · simp [valid] at invalid

/-- Settles O38: each of the six parts of the invariant is kept by every step. -/
theorem stepKeepsCoherent : Obligations.StepKeepsCoherent := by
  unfold Obligations.StepKeepsCoherent
  intro s t ⟨hbusy, hhalted, hnone, hlisted, hchar, hreset⟩ h
  exact ⟨step_keeps_busyIsPending hbusy h, step_keeps_haltedHasNoCommand hhalted h,
    step_keeps_noErrorNoRecord hnone h, step_keeps_recordIsListed hlisted h,
    step_keeps_validCharLegal hchar h, step_keeps_invalidHoldsReset hreset h⟩

/-- Settles O39: at reset nothing is pending, no error is recorded and no register is valid. -/
theorem resetIsCoherent : Obligations.ResetIsCoherent := by
  unfold Obligations.ResetIsCoherent
  refine ⟨rfl, fun _ => rfl, fun _ => ⟨rfl, rfl, rfl⟩, fun halted => ?_, fun r _ valid => ?_, fun r _ _ => ?_⟩
  · cases halted
  · simp [Element.reset] at valid
  · exact State.reset_elem r

/-- Settles O40: a step keeps BUSY and PENDING, ends a commit or accepts a CMD write. -/
theorem busyExactlyWhilePending : Obligations.BusyExactlyWhilePending := by
  unfold Obligations.BusyExactlyWhilePending
  intro s t hs h
  refine ⟨step_keeps_busyIsPending hs h, fun empty filled => ?_, fun pend turn => ?_⟩
  · rcases step_command h with ⟨-, -, hp, -⟩ | ⟨-, hp⟩ | ⟨v, turn, hb, -, hp⟩
    · exact absurd (hp.trans empty) filled
    · exact absurd hp filled
    · exact ⟨hb, v, turn, hp⟩
  · rcases step_command h with ⟨-, -, -, idle⟩ | ⟨hb, -⟩ | ⟨v, write, -⟩
    · exact absurd (idle turn) pend
    · exact hb
    · simp [turn] at write

/-- Settles O42: only a refused CMD write sets DROP, and it sets nothing else. -/
theorem dropSetOnlyByDroppedWrite : Obligations.DropSetOnlyByDroppedWrite := by
  unfold Obligations.DropSetOnlyByDroppedWrite
  intro s t noReset h
  rcases step_drop h with ⟨hd, hno⟩ | reset | ⟨refused, rfl⟩
  · refine ⟨?_, fun v turn busyOrErr => absurd ⟨busyOrErr, v, turn⟩ hno⟩
    rw [hd]
    exact ⟨.inl, fun h => h.elim id fun refused => absurd refused hno⟩
  · exact absurd reset noReset
  · exact ⟨⟨fun _ => .inr refused, fun _ => rfl⟩, fun _ _ _ => rfl⟩

/-! ## CMPF -/

/-- A comparison of valid operands writes the relation to CMPF and nothing else (R150). -/
theorem exec_cmpInstr_valid {s : State} {ra rb : ElemReg} (cc : Cond) (ha : (s.elem ra).valid = true)
    (hb : (s.elem rb).valid = true) :
    exec (cmpInstr cc ra rb) s = .next (s.setCmpf (relationHolds cc (s.elem ra).coef (s.elem rb).coef)) := by
  have e := compareResult_valid cc ha hb
  cases cc <;> simp [cmpInstr, exec, execCmpEq, execCmpNe, execCmpLt, execCmpGt, execCmpLe, execCmpGe, e]

/-- Settles O37: a comparison of valid operands runs to the relation, and no other step but reset changes CMPF. -/
theorem cmpfWrittenOnlyByCompare : Obligations.CmpfWrittenOnlyByCompare := by
  unfold Obligations.CmpfWrittenOnlyByCompare
  intro s t noReset h
  constructor
  · rcases step_cmpf h with same | reset | ⟨w, cc, ra, rb, turn, hp, hd, ha, hb, -⟩
    · exact .inl same
    · exact absurd reset noReset
    · exact .inr ⟨w, cc, ra, rb, turn, hp, hd, ha, hb⟩
  · intro w cc ra rb turn hp hd ha hb
    rw [step_of_command turn hp hd, exec_cmpInstr_valid (s := s.popTurn) cc ha hb] at h
    cases h
    rfl

/-! ## Frames of the commands -/

/-- The error commit of a command is the error record of R207. -/
theorem recordsError_commitError (s : State) (w : Word) (c : ErrorCause) : RecordsError s (s.commitError w c) w c :=
  ⟨rfl, rfl, rfl, rfl, rfl, rfl⟩

/-- An error commit leaves everything that is not the command's. -/
theorem sameSurroundings_commitError (s : State) (w : Word) (c : ErrorCause) :
    SameSurroundings s (s.commitError w c) :=
  ⟨rfl, rfl, rfl, rfl, rfl, rfl, rfl⟩

/-- Settles O34: such a command records an error or writes its destination. -/
theorem elementCommandFrame : Obligations.ElementCommandFrame := by
  unfold Obligations.ElementCommandFrame
  intro i rd s t hdest h
  rcases exec_cases i s with ⟨c, e⟩ | ⟨rd', x, hdest', hv, -, e⟩ | ⟨cc, ra, rb, rfl, -⟩
  · cases e.symm.trans h
    exact ⟨fun _ _ => rfl, rfl, sameSurroundings_commitError s _ c, .inr ⟨c, recordsError_commitError s _ c⟩⟩
  · cases e.symm.trans h
    obtain rfl : rd' = rd := Option.some.inj (hdest'.symm.trans hdest)
    have valid : ((s.setElem rd' x).elem rd').valid = true := by rw [State.setElem_elem_same, hv]
    exact ⟨fun r hr => State.setElem_elem_other s _ r x hr, rfl, ⟨rfl, rfl, rfl, rfl, rfl, rfl, rfl⟩,
      .inl ⟨⟨rfl, rfl, rfl, rfl⟩, valid⟩⟩
  · simp [destination_cmpInstr] at hdest

/-- Settles O35: a comparison records an error or writes CMPF. -/
theorem compareCommandFrame : Obligations.CompareCommandFrame := by
  unfold Obligations.CompareCommandFrame
  intro i s t hdest h
  rcases exec_cases i s with ⟨c, e⟩ | ⟨rd, x, hdest', -⟩ | ⟨cc, ra, rb, rfl, -, -, e⟩
  · cases e.symm.trans h
    exact ⟨rfl, sameSurroundings_commitError s _ c, .inr ⟨c, recordsError_commitError s _ c⟩⟩
  · simp [hdest] at hdest'
  · cases e.symm.trans h
    exact ⟨rfl, ⟨rfl, rfl, rfl, rfl, rfl, rfl, rfl⟩, .inl ⟨rfl, rfl, rfl, rfl⟩⟩

/-! ## VALID -/

/-- ADD and SUB of a first source that is not valid (R205). -/
theorem addResult_firstInvalid {s : State} {ra : ElemReg} (rd rb : ElemReg) (invalid : (s.elem ra).valid = false) :
    addResult rd ra rb s = .error .uninitA := by
  simp [addResult, operandA_invalid invalid, bind, Except.bind]

/-- ADD and SUB of a valid first source and a second that is not (R205). -/
theorem addResult_secondInvalid {s : State} {ra rb : ElemReg} (rd : ElemReg) (valid : (s.elem ra).valid = true)
    (invalid : (s.elem rb).valid = false) : addResult rd ra rb s = .error .uninitB := by
  simp [addResult, operandA_valid valid, operandB_invalid invalid, bind, Except.bind]

/-- A comparison of a first source that is not valid (R205). -/
theorem compareResult_firstInvalid {s : State} {ra : ElemReg} (cc : Cond) (rb : ElemReg)
    (invalid : (s.elem ra).valid = false) : compareResult cc ra rb s = .error .uninitA := by
  simp [compareResult, operandA_invalid invalid, bind, Except.bind]

/-- A comparison of a valid first source and a second that is not (R205). -/
theorem compareResult_secondInvalid {s : State} {ra rb : ElemReg} (cc : Cond) (valid : (s.elem ra).valid = true)
    (invalid : (s.elem rb).valid = false) : compareResult cc ra rb s = .error .uninitB := by
  simp [compareResult, operandA_valid valid, operandB_invalid invalid, bind, Except.bind]

/-- A command whose first source is not valid raises UninitialisedOperand sub 1 (R205). -/
theorem exec_firstSource_invalid {i : Instr} {s : State} {r : ElemReg} (hr : firstSource i = some r)
    (invalid : (s.elem r).valid = false) : exec i s = .next (s.commitError (encode i) .uninitA) := by
  cases i with
  | lde => cases hr
  | add | sub => cases hr; simp [exec, execAdd, execSub, addResult_firstInvalid _ _ invalid]
  | mul | inv => cases hr; simp [exec, execMul, execInv, operandA_invalid invalid, bind, Except.bind]
  | cmpEq | cmpNe | cmpLt | cmpGt | cmpLe | cmpGe =>
    cases hr
    simp [exec, execCmpEq, execCmpNe, execCmpLt, execCmpGt, execCmpLe, execCmpGe,
      compareResult_firstInvalid _ _ invalid]

/-- A command whose first source is valid and whose second is not raises UninitialisedOperand sub 2 (R205). -/
theorem exec_secondSource_invalid {i : Instr} {s : State} {ra rb : ElemReg} (hra : firstSource i = some ra)
    (hrb : secondSource i = some rb) (valid : (s.elem ra).valid = true) (invalid : (s.elem rb).valid = false) :
    exec i s = .next (s.commitError (encode i) .uninitB) := by
  cases i with
  | lde | inv => cases hrb
  | add | sub =>
    cases hra; cases hrb
    simp [exec, execAdd, execSub, addResult_secondInvalid _ valid invalid]
  | mul =>
    cases hra; cases hrb
    simp [exec, execMul, operandA_valid valid, operandB_invalid invalid, bind, Except.bind]
  | cmpEq | cmpNe | cmpLt | cmpGt | cmpLe | cmpGe =>
    cases hra; cases hrb
    simp [exec, execCmpEq, execCmpNe, execCmpLt, execCmpGt, execCmpLe, execCmpGe,
      compareResult_secondInvalid _ valid invalid]

/-- A command whose commit is an error commit raises that error, under its codes of R201. -/
theorem raisesError_of_commitError {i : Instr} {s : State} {c : ErrorCause}
    (h : exec i s = .next (s.commitError (encode i) c)) : RaisesError i s c.code c.sub :=
  h

/-- A command with a second source has a first one (R26). -/
theorem firstSource_of_secondSource {i : Instr} {rb : ElemReg} (h : secondSource i = some rb) :
    ∃ ra, firstSource i = some ra := by
  cases i with
  | lde | inv => cases h
  | add | sub | mul | cmpEq | cmpNe | cmpLt | cmpGt | cmpLe | cmpGe => exact ⟨_, rfl⟩

/-- A command that reads a register that is not valid raises UninitialisedOperand, sub 1 or 2 (R25, R205). -/
theorem exec_invalid_source {i : Instr} {s : State} {r : ElemReg}
    (hr : firstSource i = some r ∨ secondSource i = some r) (invalid : (s.elem r).valid = false) :
    RaisesError i s 4 1 ∨ RaisesError i s 4 2 := by
  rcases hr with hr | hr
  · exact .inl (raisesError_of_commitError (exec_firstSource_invalid hr invalid))
  · obtain ⟨ra, hra⟩ := firstSource_of_secondSource hr
    cases valid : (s.elem ra).valid
    · exact .inl (raisesError_of_commitError (exec_firstSource_invalid hra valid))
    · exact .inr (raisesError_of_commitError (exec_secondSource_invalid hra hr valid invalid))

/-- The commit of a command with a destination leaves it valid, or records an error of the pending word (R25, R207). -/
theorem step_destination {s : State} {w : Word} {i : Instr} {rd : ElemReg} (turn : s.nextTurn = .sequencer)
    (hp : s.pending = some w) (hd : decode w = .ok i) (hdest : destination i = some rd) :
    ∃ t, step s = .next t ∧ ((t.elem rd).valid = true ∨ ∃ c, RecordsError s t w c) := by
  rw [step_of_command turn hp hd]
  rcases exec_cases i s.popTurn with ⟨c, e⟩ | ⟨rd', x, hdest', hv, -, e⟩ | ⟨cc, ra, rb, rfl, -⟩
  · rw [e, encode_of_decode hd]
    exact ⟨_, rfl, .inr ⟨c, rfl, rfl, rfl, rfl, rfl, rfl⟩⟩
  · obtain rfl : rd' = rd := Option.some.inj (hdest'.symm.trans hdest)
    rw [e]
    exact ⟨_, rfl, .inl (by simp [hv])⟩
  · simp [destination_cmpInstr] at hdest

/-- Settles O36: a step keeps the register file, resets it, or writes one destination with VALID = 1. -/
theorem validOnlyClearedByReset : Obligations.ValidOnlyClearedByReset := by
  unfold Obligations.ValidOnlyClearedByReset
  refine ⟨fun s t turn h r => ?_, fun s t noReset h r => ?_,
    fun s w i rd turn hp hd hdest => step_destination turn hp hd hdest,
    fun i s r hr invalid => exec_invalid_source hr invalid⟩
  · have e : step s = .next s.popTurn.resetBlock := by simp [step, turn, runTurn]
    cases e.symm.trans h
    simp [Element.reset]
  · have unchanged (same : t.elem r = s.elem r) :
        ((s.elem r).valid = true → (t.elem r).valid = true) ∧
        (t.elem r ≠ s.elem r → (t.elem r).valid = true ∧ s.nextTurn = .sequencer ∧
          ∃ w i, s.pending = some w ∧ decode w = .ok i ∧ destination i = some r) :=
      ⟨fun valid => same ▸ valid, fun changed => absurd same changed⟩
    rcases step_elems h with same | ⟨turn, -⟩ | written
    · exact unchanged (State.elem_congr same r)
    · exact absurd turn noReset
    · rcases elem_of_elementWritten written r with same | ⟨valid, -, commit⟩
      · exact unchanged same
      · exact ⟨fun _ => valid, fun _ => ⟨valid, commit⟩⟩

/-! ## The window's words, and reset -/

/-- Reset leaves the window's registers as they are right after power-on (R41). -/
theorem resetBlock_regRead (s : State) (off : Nat) : s.resetBlock.regRead off = State.reset.regRead off := by
  unfold State.regRead
  cases windowReg off with
  | elem r => simp [State.readReg]
  | _ => rfl

/-- Settles O20: a reset turn answers the reset block, whose fields are R41's. -/
theorem resetLeavesStatedValues : Obligations.ResetLeavesStatedValues := by
  unfold Obligations.ResetLeavesStatedValues
  refine ⟨fun s turn => ⟨s.popTurn.resetBlock, by simp [step, turn, runTurn], fun r => ?_, fun off hoff => ?_, ?_⟩, rfl⟩
  · simp [Element.reset]
  · rw [resetBlock_regRead]
    revert off; decide
  · exact ⟨rfl, rfl, rfl, rfl, rfl, rfl, rfl, rfl, rfl, rfl, rfl, rfl, rfl, fun _ => rfl⟩

/-- Settles O14: each field of STATUS is its part of the concatenation of R29. -/
theorem statusWordLayout : Obligations.StatusWordLayout := by
  unfold Obligations.StatusWordLayout
  intro s
  have status : s.regRead 0x04 = statusWord s.status s.elems := rfl
  have errcmd : s.regRead 0x08 = s.errcmd := rfl
  simp (disch := decide) only [status, errcmd, statusWord, ElemFile.validBits, BitVec.getLsbD_append,
    BitVec.extractLsb'_append_eq_of_le, BitVec.extractLsb'_append_eq_of_add_le, BitVec.extractLsb'_eq_self,
    ↓reduceIte, Nat.reduceSub, Nat.reduceLT, State.elem, ElemFile.get]
  simp

/-- The fields of an element in the word the host reads (R37). -/
theorem view_fields (e : Element) :
    e.view.extractLsb' 0 8 = e.coef ∧ e.view.extractLsb' 8 4 = e.char ∧ e.view.extractLsb' 12 4 = 0
      ∧ e.view.extractLsb' 16 9 = e.mod ∧ e.view.extractLsb' 25 6 = 0 ∧ e.view.getLsbD 31 = e.valid := by
  simp (disch := decide) only [Element.view, BitVec.getLsbD_append, BitVec.extractLsb'_append_eq_of_le,
    BitVec.extractLsb'_append_eq_of_add_le, BitVec.extractLsb'_eq_self, Nat.reduceSub]
  simp

/-- Settles O15: the register at ELEMi's offset is element i, and only CMD takes writes. -/
theorem elementViewLayout : Obligations.ElementViewLayout := by
  unfold Obligations.ElementViewLayout
  intro s r off hoff
  have reg : windowReg off = .elem r := by
    simp only [List.mem_cons, Prod.mk.injEq, List.not_mem_nil, or_false] at hoff
    rcases hoff with ⟨rfl, rfl⟩ | ⟨rfl, rfl⟩ | ⟨rfl, rfl⟩ | ⟨rfl, rfl⟩ <;> rfl
  have view : s.regRead off = (s.elem r).view := by simp [State.regRead, reg, State.readReg]
  have ignored (v : Word) : s.regWrite off v = s := by simp [State.regWrite, reg]
  obtain ⟨coef, char, zero, mod, zeros, valid⟩ := view_fields (s.elem r)
  rw [view]
  exact ⟨coef, char, zero, mod, zeros, valid, ignored⟩

end Sys2Proof.Machine

/-! ## When a written element is reduced (R21) -/

namespace Sys2Proof.Machine

open Sys2Proof Sys2Proof.Claims

/-- One shift-and-reduce clears the bits from n up (R133). -/
theorem shiftReduce_toNat_lt (mod : Modulus) (n : Nat) (m : BitVec 8) : (shiftReduce mod n m).toNat < 2 ^ n := by
  refine Nat.lt_pow_two_of_testBit _ fun i hi => ?_
  show (shiftReduce mod n m).getLsbD i = false
  by_cases h8 : i < 8
  · simp [shiftReduce_getLsbD mod n m i h8, Nat.not_lt.mpr hi]
  · exact BitVec.getLsbD_of_ge _ _ (Nat.le_of_not_lt h8)

/-- The loop keeps the product below 2^n (R138). -/
theorem mulLoop_product_lt (mod : Modulus) (n fuel : Nat) (k : Work) (hm : k.multiplicand.toNat < 2 ^ n)
    (hp : k.product.toNat < 2 ^ n) : (mulLoop mod n fuel k).product.toNat < 2 ^ n := by
  induction fuel generalizing k with
  | zero => exact hp
  | succ fuel ih =>
    by_cases h : k.multiplicand = 0 ∨ k.multiplier = 0
    · rw [mulLoop_exit h]; exact hp
    · rw [mulLoop_iterate h]
      refine ih _ (shiftReduce_toNat_lt mod n _) ?_
      show (if k.multiplier.getLsbD 0 then k.product ^^^ k.multiplicand else k.product).toNat < 2 ^ n
      split
      · rw [BitVec.toNat_xor]; exact Nat.xor_lt_two_pow hp hm
      · exact hp

/-- Every product is below 2^n, whatever n is (R138). -/
theorem gfmul_toNat_lt (a b : Coef) (mod : Modulus) (n : Nat) : (gfmul a b mod n).toNat < 2 ^ n := by
  refine mulLoop_product_lt mod n n _ ?_ (Nat.two_pow_pos n)
  show (a &&& mask 8 n).toNat < 2 ^ n
  rw [and_mask_toNat]
  exact Nat.mod_lt _ (Nat.two_pow_pos n)

/-- The k-th candidate after the next one is the one after the k-th. -/
theorem succ_candidate (c : BitVec 9) (k : Nat) : c + 1 + BitVec.ofNat 9 k = c + BitVec.ofNat 9 (k + 1) := by
  rw [BitVec.ofNat_add, BitVec.add_assoc, BitVec.add_comm 1]
  rfl

/-- What a search finds is one of its candidates, with product 1 (R170). -/
theorem searchFrom_some {p : Coef} {mod : Modulus} {n left : Nat} {c : BitVec 9} {x : Coef}
    (h : searchFrom p mod n left c = some x) :
    ∃ k < left, x = (c + BitVec.ofNat 9 k).setWidth 8 ∧ gfmul p x mod n = 1 := by
  induction left generalizing c with
  | zero => cases h
  | succ left ih =>
    by_cases hc : gfmul p (c.setWidth 8) mod n = 1
    · rw [searchFrom_found hc] at h
      cases h
      exact ⟨0, Nat.succ_pos left, by simp, hc⟩
    · rw [searchFrom_next hc] at h
      obtain ⟨k, hk, rfl, hx⟩ := ih h
      exact ⟨k + 1, Nat.succ_lt_succ hk, by rw [succ_candidate], hx⟩

/-- A search that finds nothing has tried every candidate (R170). -/
theorem searchFrom_none {p : Coef} {mod : Modulus} {n left : Nat} {c : BitVec 9}
    (h : searchFrom p mod n left c = none) {k : Nat} (hk : k < left) :
    gfmul p ((c + BitVec.ofNat 9 k).setWidth 8) mod n ≠ 1 := by
  induction left generalizing c k with
  | zero => omega
  | succ left ih =>
    have hc : gfmul p (c.setWidth 8) mod n ≠ 1 := fun hc => by simp [searchFrom_found hc] at h
    rw [searchFrom_next hc] at h
    cases k with
    | zero => simpa using hc
    | succ k =>
      rw [← succ_candidate]
      exact ih h (Nat.lt_of_succ_lt_succ hk)

/-- The k-th candidate of the search, from 1 on, as an 8-bit field (R170). -/
theorem candidate_toNat (k : Nat) : ((1 + BitVec.ofNat 9 k : BitVec 9).setWidth 8).toNat = (k + 1) % 256 := by
  show (1 + k % 2 ^ 9) % 2 ^ 9 % 2 ^ 8 = (k + 1) % 256
  omega

/-- What the search finds is below 2^n, whatever n is (R170). -/
theorem invSearch_toNat_lt {p c : Coef} {mod : Modulus} {n : Nat} (h : invSearch p mod n = some c) :
    c.toNat < 2 ^ n := by
  obtain ⟨k, hk, rfl, -⟩ := searchFrom_some h
  rw [candidate_toNat]
  exact Nat.lt_of_le_of_lt (Nat.mod_le _ _) (by omega)

/-- The search finds an inverse where there is one (R170). -/
theorem invSearch_of_isInverse {p d : Coef} {mod : Modulus} {n : Nat} (h : IsInverse p mod n d) :
    ∃ c, invSearch p mod n = some c := by
  obtain ⟨hpos, hlt, hone⟩ := h
  refine Option.ne_none_iff_exists'.mp fun hnone => ?_
  have hd : (1 + BitVec.ofNat 9 (d.toNat - 1) : BitVec 9).setWidth 8 = d := by
    apply BitVec.eq_of_toNat_eq
    rw [candidate_toNat]
    have := d.isLt
    omega
  have hne := searchFrom_none hnone (k := d.toNat - 1) (by omega)
  rw [hd] at hne
  exact hne hone

/-- LDE with a legal CHAR stores what it was given (R110). -/
theorem exec_lde_legal (s : State) (rd : ElemReg) (coef : Coef) (mod : Modulus) {char : Charac}
    (h : char.toNat ≤ Config.nMax) :
    exec (.lde rd coef mod char) s = .next (s.setElem rd { coef := coef, mod := mod, char := char, valid := true }) := by
  simp [exec, execLde, require, h, bind, Except.bind, pure, Except.pure]

/-- ADD and SUB of valid operands write the adder's element (R121, R122). -/
theorem exec_addSub_valid {s : State} (rd : ElemReg) {ra rb : ElemReg} (ha : (s.elem ra).valid = true)
    (hb : (s.elem rb).valid = true) :
    exec (.add rd ra rb) s = .next (s.setElem rd (xorAdd (s.elem ra) (s.elem rb)))
      ∧ exec (.sub rd ra rb) s = .next (s.setElem rd (xorAdd (s.elem ra) (s.elem rb))) := by
  simp [exec, execAdd, execSub, addResult_valid rd ha hb]

/-- MUL under its preconditions writes the product (R134). -/
theorem exec_mul_ready {s : State} (rd : ElemReg) {ra rb : ElemReg} (h : MulReady s ra rb) :
    exec (.mul rd ra rb) s = .next (s.setElem rd
      { coef := gfmul (s.elem ra).coef (s.elem rb).coef (s.elem ra).mod (s.elem ra).char.toNat
        mod := (s.elem ra).mod, char := (s.elem ra).char, valid := true }) := by
  obtain ⟨ha, hb, hmod, hmod0, hchar, hchar0⟩ := h
  simp only [exec, execMul, operandA_valid ha, operandB_valid hb, beq_iff_eq.mpr hmod, bne_iff_ne.mpr hmod0,
    beq_iff_eq.mpr hchar, bne_iff_ne.mpr hchar0, require_true, bind, Except.bind, pure, Except.pure, commit_ok]

/-- INV under its preconditions writes what the search finds (R171). -/
theorem exec_inv_found {s : State} (rd : ElemReg) {ra : ElemReg} {c : Coef} (h : InvReady s ra)
    (hc : invSearch (s.elem ra).coef (s.elem ra).mod (s.elem ra).char.toNat = some c) :
    exec (.inv rd ra) s = .next (s.setElem rd
      { coef := c, mod := (s.elem ra).mod, char := (s.elem ra).char, valid := true }) := by
  obtain ⟨ha, hmod, hchar⟩ := h
  simp only [exec, execInv, operandA_valid ha, bne_iff_ne.mpr hmod, bne_iff_ne.mpr hchar, require_true, foundOr, hc,
    bind, Except.bind, pure, Except.pure, commit_ok]

/-- A command that wrote a reduced record left its destination reduced. -/
theorem reduced_of_exec {i : Instr} {s t : State} {rd : ElemReg} {e : Element} (he : Reduced e)
    (hw : exec i s = .next (s.setElem rd e)) (h : exec i s = .next t) : Reduced (t.elem rd) := by
  cases hw.symm.trans h
  rwa [State.setElem_elem_same]

/-- The adder keeps COEF below 2^CHAR of the first operand (R120). -/
theorem reduced_xorAdd {a b : Element} (ha : Reduced a) (hb : b.coef.toNat < 2 ^ a.char.toNat) :
    Reduced (xorAdd a b) := by
  show (a.coef ^^^ b.coef).toNat < 2 ^ a.char.toNat
  rw [BitVec.toNat_xor]
  exact Nat.xor_lt_two_pow ha hb

/-- Settles O33: each command writes a record whose COEF is below 2^CHAR. -/
theorem writtenElementsAreReduced : Obligations.WrittenElementsAreReduced := by
  unfold Obligations.WrittenElementsAreReduced
  intro s t rd ra rb
  refine ⟨fun coef mod char legal hcoef h => ?_, fun ha hb hra hrb h => ?_, fun ready h => ?_, fun ready hinv h => ?_⟩
  · exact reduced_of_exec (e := ⟨coef, mod, char, true⟩) hcoef (exec_lde_legal s rd coef mod legal) h
  · obtain ⟨add, sub⟩ := exec_addSub_valid rd ha hb
    exact h.elim (reduced_of_exec (reduced_xorAdd hra hrb) add) (reduced_of_exec (reduced_xorAdd hra hrb) sub)
  · exact reduced_of_exec (gfmul_toNat_lt _ _ _ _) (exec_mul_ready rd ready) h
  · obtain ⟨d, hd⟩ := hinv
    obtain ⟨c, hc⟩ := invSearch_of_isInverse hd
    exact reduced_of_exec (invSearch_toNat_lt hc) (exec_inv_found rd ready hc) h

end Sys2Proof.Machine

/-! ## The register window and the two agents (20_memory.md) -/

namespace Sys2Proof.Machine

open Sys2Proof Sys2Proof.Claims

/-! ### What execution depends on -/

/-- A command has one effect on both states: the same error, the same record in the destination, or the same CMPF. -/
def SameEffect (i : Instr) (s u : State) : Prop :=
  (∃ c, exec i s = .next (s.commitError (encode i) c) ∧ exec i u = .next (u.commitError (encode i) c))
  ∨ (∃ rd e, destination i = some rd ∧ exec i s = .next (s.setElem rd e) ∧ exec i u = .next (u.setElem rd e))
  ∨ (∃ b, destination i = none ∧ exec i s = .next (s.setCmpf b) ∧ exec i u = .next (u.setCmpf b))

/-- The same error on both states (R207). -/
theorem SameEffect.error {i : Instr} {s u : State} {c : ErrorCause}
    (hs : exec i s = .next (s.commitError (encode i) c)) (hu : exec i u = .next (u.commitError (encode i) c)) :
    SameEffect i s u :=
  .inl ⟨c, hs, hu⟩

/-- The same record in the destination of both states (R26). -/
theorem SameEffect.element {i : Instr} {s u : State} {rd : ElemReg} {e : Element} (hdest : destination i = some rd)
    (hs : exec i s = .next (s.setElem rd e)) (hu : exec i u = .next (u.setElem rd e)) : SameEffect i s u :=
  .inr (.inl ⟨rd, e, hdest, hs, hu⟩)

/-- The same CMPF in both states (R32). -/
theorem SameEffect.cmpf {i : Instr} {s u : State} {b : Bool} (hdest : destination i = none)
    (hs : exec i s = .next (s.setCmpf b)) (hu : exec i u = .next (u.setCmpf b)) : SameEffect i s u :=
  .inr (.inr ⟨b, hdest, hs, hu⟩)

/-- LDE with a CHAR above N_MAX (R112). -/
theorem exec_lde_illegal (s : State) (rd : ElemReg) (coef : Coef) (mod : Modulus) {char : Charac}
    (h : ¬ char.toNat ≤ Config.nMax) :
    exec (.lde rd coef mod char) s = .next (s.commitError (encode (.lde rd coef mod char)) .charRange) := by
  simp [exec, execLde, require, h, bind, Except.bind]

/-- MUL of valid operands: the checks in the order of R206, then the product (R134). -/
theorem exec_mul_valid {s : State} (rd : ElemReg) {ra rb : ElemReg} (ha : (s.elem ra).valid = true)
    (hb : (s.elem rb).valid = true) :
    exec (.mul rd ra rb) s = .next
      (if (s.elem ra).mod ≠ (s.elem rb).mod then s.commitError (encode (.mul rd ra rb)) .modMismatch
      else if (s.elem ra).mod = 0 then s.commitError (encode (.mul rd ra rb)) .modZero
      else if (s.elem ra).char ≠ (s.elem rb).char then s.commitError (encode (.mul rd ra rb)) .charMismatch
      else if (s.elem ra).char = 0 then s.commitError (encode (.mul rd ra rb)) .charZero
      else s.setElem rd
        { coef := gfmul (s.elem ra).coef (s.elem rb).coef (s.elem ra).mod (s.elem ra).char.toNat
          mod := (s.elem ra).mod, char := (s.elem ra).char, valid := true }) := by
  simp only [exec, execMul, operandA_valid ha, operandB_valid hb, bind, Except.bind, pure, Except.pure]
  split_ifs <;> simp_all [require]

/-- INV of a valid operand: MOD, then CHAR, then what the search finds (R171). -/
theorem exec_inv_valid {s : State} (rd : ElemReg) {ra : ElemReg} (ha : (s.elem ra).valid = true) :
    exec (.inv rd ra) s = .next
      (if (s.elem ra).mod = 0 then s.commitError (encode (.inv rd ra)) .modZero
      else if (s.elem ra).char = 0 then s.commitError (encode (.inv rd ra)) .charZero
      else (invSearch (s.elem ra).coef (s.elem ra).mod (s.elem ra).char.toNat).elim
        (s.commitError (encode (.inv rd ra)) .noInverse)
        fun c => s.setElem rd { coef := c, mod := (s.elem ra).mod, char := (s.elem ra).char, valid := true }) := by
  simp only [exec, execInv, operandA_valid ha, bind, Except.bind, pure, Except.pure]
  split_ifs with hmod hchar
  · simp [require, hmod]
  · simp_all [require]
  · cases invSearch (s.elem ra).coef (s.elem ra).mod (s.elem ra).char.toNat <;> simp_all [require, foundOr]

/-- LDE reads its immediates only (R110). -/
theorem sameEffect_lde (s u : State) (rd : ElemReg) (coef : Coef) (mod : Modulus) (char : Charac) :
    SameEffect (.lde rd coef mod char) s u := by
  by_cases legal : char.toNat ≤ Config.nMax
  · exact .element rfl (exec_lde_legal s rd coef mod legal) (exec_lde_legal u rd coef mod legal)
  · exact .error (exec_lde_illegal s rd coef mod legal) (exec_lde_illegal u rd coef mod legal)

section

variable {s u : State} (same : ∀ r, u.elem r = s.elem r)

include same

/-- A source that is not valid decides the error of a command, the first one before the second (R205). -/
theorem sameEffect_of_invalid_source {i : Instr} {r : ElemReg}
    (hr : firstSource i = some r ∨ secondSource i = some r) (invalid : (s.elem r).valid = false) :
    SameEffect i s u := by
  have first {ra : ElemReg} (hra : firstSource i = some ra) (invalid : (s.elem ra).valid = false) :
      SameEffect i s u :=
    .error (exec_firstSource_invalid hra invalid) (exec_firstSource_invalid hra (by rwa [same]))
  rcases hr with hr | hr
  · exact first hr invalid
  · obtain ⟨ra, hra⟩ := firstSource_of_secondSource hr
    cases valid : (s.elem ra).valid
    · exact first hra valid
    · exact .error (exec_secondSource_invalid hra hr valid invalid)
        (exec_secondSource_invalid hra hr (by rwa [same]) (by rwa [same]))

/-- For a command with two sources it is enough to look at valid ones. -/
theorem sameEffect_of_valid {i : Instr} {ra rb : ElemReg} (hra : firstSource i = some ra)
    (hrb : secondSource i = some rb)
    (h : (s.elem ra).valid = true → (s.elem rb).valid = true → (u.elem ra).valid = true → (u.elem rb).valid = true →
      SameEffect i s u) : SameEffect i s u := by
  rcases operands_cases s ra rb with ⟨ha, hb⟩ | ha | ⟨-, hb⟩
  · exact h ha hb (by rwa [same]) (by rwa [same])
  · exact sameEffect_of_invalid_source same (.inl hra) ha
  · exact sameEffect_of_invalid_source same (.inr hrb) hb

/-- ADD and SUB read their two operands only (R120). -/
theorem sameEffect_addSub (rd ra rb : ElemReg) : SameEffect (.add rd ra rb) s u ∧ SameEffect (.sub rd ra rb) s u := by
  constructor <;> refine sameEffect_of_valid same rfl rfl fun has hbs hau hbu => ?_
  all_goals
    obtain ⟨adds, subs⟩ := exec_addSub_valid rd has hbs
    obtain ⟨addu, subu⟩ := exec_addSub_valid rd hau hbu
    simp only [same] at addu subu
  · exact .element rfl adds addu
  · exact .element rfl subs subu

/-- The checks and the product of MUL read its two operands only (R134). -/
theorem sameEffect_mul (rd ra rb : ElemReg) : SameEffect (.mul rd ra rb) s u := by
  refine sameEffect_of_valid same rfl rfl fun has hbs hau hbu => ?_
  have hs := exec_mul_valid rd has hbs
  have hu := exec_mul_valid rd hau hbu
  simp only [same] at hu
  split_ifs at hs hu
  · exact .error hs hu
  · exact .error hs hu
  · exact .error hs hu
  · exact .error hs hu
  · exact .element rfl hs hu

/-- The checks and the search of INV read its operand only (R171). -/
theorem sameEffect_inv (rd ra : ElemReg) : SameEffect (.inv rd ra) s u := by
  cases ha : (s.elem ra).valid
  · exact sameEffect_of_invalid_source same (.inl rfl) ha
  have hs := exec_inv_valid rd ha
  have hu := exec_inv_valid (s := u) (ra := ra) rd (by rwa [same])
  simp only [same] at hu
  split_ifs at hs hu
  · exact .error hs hu
  · exact .error hs hu
  · cases hc : invSearch (s.elem ra).coef (s.elem ra).mod (s.elem ra).char.toNat <;> rw [hc] at hs hu
    · exact .error hs hu
    · exact .element rfl hs hu

/-- A comparison reads its two operands only (R150). -/
theorem sameEffect_cmp (cc : Cond) (ra rb : ElemReg) : SameEffect (cmpInstr cc ra rb) s u := by
  have hra : firstSource (cmpInstr cc ra rb) = some ra := by cases cc <;> rfl
  have hrb : secondSource (cmpInstr cc ra rb) = some rb := by cases cc <;> rfl
  refine sameEffect_of_valid same hra hrb fun has hbs hau hbu => ?_
  have hu := exec_cmpInstr_valid cc hau hbu
  simp only [same] at hu
  exact .cmpf (destination_cmpInstr cc ra rb) (exec_cmpInstr_valid cc has hbs) hu

end

/-- Settles O10: each command gets the same effect, from its checks and its operands. -/
theorem executeReadsOnlyElements : Obligations.ExecuteReadsOnlyElements := by
  unfold Obligations.ExecuteReadsOnlyElements
  intro i s u h
  have same (r : ElemReg) : u.elem r = s.elem r := State.elem_congr h.symm r
  cases i with
  | lde rd coef mod char => exact sameEffect_lde s u rd coef mod char
  | add rd ra rb => exact (sameEffect_addSub same rd ra rb).1
  | sub rd ra rb => exact (sameEffect_addSub same rd ra rb).2
  | mul rd ra rb => exact sameEffect_mul same rd ra rb
  | inv rd ra => exact sameEffect_inv same rd ra
  | cmpEq ra rb => exact sameEffect_cmp same .eq ra rb
  | cmpNe ra rb => exact sameEffect_cmp same .ne ra rb
  | cmpLt ra rb => exact sameEffect_cmp same .lt ra rb
  | cmpGt ra rb => exact sameEffect_cmp same .gt ra rb
  | cmpLe ra rb => exact sameEffect_cmp same .le ra rb
  | cmpGe ra rb => exact sameEffect_cmp same .ge ra rb

/-- Settles O7: the sequencer's turn on a word that decodes. -/
theorem stepRunsDecodedCommand : Obligations.StepRunsDecodedCommand := by
  unfold Obligations.StepRunsDecodedCommand
  intro s w i turn hp hd
  exact step_of_command turn hp hd

/-! ### The host's turn -/

/-- A step in which the host has the turn is the host's access. -/
theorem step_of_host {s : State} {a : Access} (turn : s.nextTurn = .host a) : step s = hostTurn a s.popTurn := by
  simp [step, turn, runTurn]

/-- An access at a 4-byte place of the window, at an offset that is a multiple of 4, is made (R53). -/
theorem step_of_place {s : State} {a : Access} {off : Nat} (turn : s.nextTurn = .host a)
    (hplace : a.place = (Config.base + off, 4)) (hin : off < Config.windowBytes) (hm : off % 4 = 0) :
    step s = .next (s.popTurn.access off a) :=
  (step_of_host turn).trans (hostTurn_of_place _ hplace hin hm)

/-- Settles O13: an admitted access is made at its offset, where only CMD takes a write. -/
theorem readsAndIgnoredWrites : Obligations.ReadsAndIgnoredWrites := by
  unfold Obligations.ReadsAndIgnoredWrites
  refine ⟨fun s off hin hm turn => ?_, fun s off v hpos hin hm turn => ?_, fun s => ⟨rfl, rfl⟩⟩
  · exact step_of_place turn rfl hin hm
  · rw [step_of_place turn rfl hin hm]
    exact congrArg _ (regWrite_of_ne_zero _ hpos.ne' v)

/-- Settles O18: a host turn gives the host a word, offers a command, or does nothing. -/
theorem hostTurnKeepsResults : Obligations.HostTurnKeepsResults := by
  unfold Obligations.HostTurnKeepsResults
  intro s t a turn h
  rw [step_of_host turn] at h
  rcases hostTurn_next h with ⟨off, rfl⟩ | ⟨v, rfl⟩ | rfl
  · exact ⟨rfl, rfl, ⟨rfl, rfl, rfl, rfl⟩, rfl, fun busy => ⟨rfl, busy⟩⟩
  · rcases offerCommand_cases s.popTurn v with ⟨idle, -, e⟩ | ⟨-, e⟩ <;> rw [e]
    · exact ⟨rfl, rfl, ⟨rfl, rfl, rfl, rfl⟩, rfl, fun busy => absurd busy (by simpa using idle)⟩
    · exact ⟨rfl, rfl, ⟨rfl, rfl, rfl, rfl⟩, rfl, fun busy => ⟨rfl, busy⟩⟩
  · exact ⟨rfl, rfl, ⟨rfl, rfl, rfl, rfl⟩, rfl, fun busy => ⟨rfl, busy⟩⟩

/-- Settles O19: the word given back has BUSY in bit 0, and BUSY says whether a command is pending. -/
theorem pollReadsZeroOnlyWhenCommitted : Obligations.PollReadsZeroOnlyWhenCommitted := by
  unfold Obligations.PollReadsZeroOnlyWhenCommitted
  intro s t v ⟨busyIsPending, _⟩ turn h hv
  obtain ⟨read, -, -⟩ := readsAndIgnoredWrites
  obtain ⟨bit0, -⟩ := statusWordLayout s
  cases (read s 0x04 (by decide) (by decide) turn).symm.trans h
  obtain rfl : s.regRead 0x04 = v := Option.some.inj hv
  rw [bit0, busyIsPending]
  exact Option.isSome_eq_false_iff.trans Option.isNone_iff_eq_none

/-- Settles O12: a CMD write offers its word, whatever the word is. -/
theorem cmdWriteAcceptedOrDropped : Obligations.CmdWriteAcceptedOrDropped := by
  unfold Obligations.CmdWriteAcceptedOrDropped
  intro s v turn
  have offered : step s = .next (s.popTurn.offerCommand v) := step_of_place (off := 0) turn rfl (by decide) rfl
  rw [offered]
  rcases offerCommand_cases s.popTurn v with ⟨hb, he, e⟩ | ⟨refused, e⟩ <;> rw [e]
  · exact ⟨fun _ _ => rfl, fun refused => absurd refused (by simpa using ⟨hb, he⟩)⟩
  · exact ⟨fun hb he => absurd refused (by simp [hb, he]), fun _ => rfl⟩

/-- An address of the window lies at its distance from BASE (R50). -/
theorem windowOffset_inside {addr : Nat} (hlo : Config.base ≤ addr) (hhi : addr < Config.base + Config.windowBytes) :
    windowOffset addr = some (addr - Config.base) :=
  if_pos ⟨hlo, hhi⟩

/-- Any other address has no offset (R52). -/
theorem windowOffset_outside {addr : Nat} (h : addr < Config.base ∨ Config.base + Config.windowBytes ≤ addr) :
    windowOffset addr = none :=
  if_neg (by omega)

/-- Settles O16: the place of the access decides, its width before its alignment. -/
theorem unadmittedAccessHasNoStep : Obligations.UnadmittedAccessHasNoStep := by
  unfold Obligations.UnadmittedAccessHasNoStep
  intro s a turn
  rw [step_of_host turn]
  refine ⟨fun hlo hhi => ⟨fun width => ?_, fun width align => ?_, fun width align => ?_⟩, fun outside => ?_⟩
  · simp [hostTurn, windowOffset_inside hlo hhi, width]
  · simp [hostTurn, windowOffset_inside hlo hhi, width, align]
  · exact ⟨_, hostTurn_of_place _ (Prod.ext (Nat.add_sub_cancel' hlo).symm width)
      (Nat.sub_lt_left_of_lt_add hlo hhi) align⟩
  · simp [hostTurn, windowOffset_outside outside]

end Sys2Proof.Machine

/-! ## The encoding: fields of a format, rows of the table, assembler lines -/

namespace Sys2Proof

open Sys2Proof.Claims

/-- The register whose index is a register's index is that register (R84). -/
@[simp] theorem ElemReg.ofBits_toBits (r : ElemReg) : ElemReg.ofBits r.toBits = r := by
  cases r <;> rfl

/-! ### The fields of a word put together (R82, R83) -/

/-- A field that lies above the lowest part of a word is a field of what is left when that part is cut off. -/
theorem extractLsb'_append_above {m n start len : Nat} {x : BitVec m} {z : BitVec len} (y : BitVec n)
    (h : x.extractLsb' start len = z) : (x ++ y).extractLsb' (start + n) len = z := by
  rw [BitVec.extractLsb'_append_eq_of_le (Nat.le_add_left n start), Nat.add_sub_cancel, h]

section
variable (cond : BitVec 3) (rb ra rd : BitVec 2) (op : BitVec 4)

@[simp] theorem opField_formatR : opField (formatR cond rb ra rd op) = op :=
  BitVec.extractLsb'_append_eq_right

@[simp] theorem rdField_formatR : rdField (formatR cond rb ra rd op) = rd :=
  extractLsb'_append_above op BitVec.extractLsb'_append_eq_right

@[simp] theorem raField_formatR : raField (formatR cond rb ra rd op) = ra :=
  extractLsb'_append_above op <| extractLsb'_append_above rd BitVec.extractLsb'_append_eq_right

@[simp] theorem rbField_formatR : rbField (formatR cond rb ra rd op) = rb :=
  extractLsb'_append_above op <| extractLsb'_append_above rd <| extractLsb'_append_above ra
    BitVec.extractLsb'_append_eq_right

@[simp] theorem condField_formatR : condField (formatR cond rb ra rd op) = cond :=
  extractLsb'_append_above op <| extractLsb'_append_above rd <| extractLsb'_append_above ra <|
    extractLsb'_append_above rb BitVec.extractLsb'_append_eq_right

@[simp] theorem rsvFieldR_formatR : rsvFieldR (formatR cond rb ra rd op) = 0 :=
  extractLsb'_append_above op <| extractLsb'_append_above rd <| extractLsb'_append_above ra <|
    extractLsb'_append_above rb BitVec.extractLsb'_append_eq_left

end

section
variable (mod : Modulus) (coef : Coef) (char : Charac) (rd : BitVec 2)

@[simp] theorem opField_formatL : opField (formatL mod coef char rd) = 0x1 :=
  BitVec.extractLsb'_append_eq_right

@[simp] theorem rdField_formatL : rdField (formatL mod coef char rd) = rd :=
  extractLsb'_append_above _ BitVec.extractLsb'_append_eq_right

@[simp] theorem charField_formatL : charField (formatL mod coef char rd) = char :=
  extractLsb'_append_above _ <| extractLsb'_append_above rd BitVec.extractLsb'_append_eq_right

@[simp] theorem coefField_formatL : coefField (formatL mod coef char rd) = coef :=
  extractLsb'_append_above _ <| extractLsb'_append_above rd <| extractLsb'_append_above char
    BitVec.extractLsb'_append_eq_right

@[simp] theorem modField_formatL : modField (formatL mod coef char rd) = mod :=
  extractLsb'_append_above _ <| extractLsb'_append_above rd <| extractLsb'_append_above char <|
    extractLsb'_append_above coef BitVec.extractLsb'_append_eq_right

@[simp] theorem rsvFieldL_formatL : rsvFieldL (formatL mod coef char rd) = 0 :=
  extractLsb'_append_above _ <| extractLsb'_append_above rd <| extractLsb'_append_above char <|
    extractLsb'_append_above coef BitVec.extractLsb'_append_eq_left

end

/-! ### A command's word passes the checks of R88 -/

/-- The word of a comparison: format R with OP 0x6, RD zero and the relation's COND (R86). -/
theorem encode_cmpInstr (cc : Cond) (ra rb : ElemReg) :
    encode (cmpInstr cc ra rb) = formatR (condCode cc) rb.toBits ra.toBits 0 0x6 := by
  cases cc <;> rfl

/-- A relation's COND selects the comparison of that relation (R86). -/
@[simp] theorem compareCommand_condCode (cc : Cond) (ra rb : ElemReg) :
    compareCommand (condCode cc) ra rb = cmpInstr cc ra rb := by
  cases cc <;> rfl

/-- No relation's COND is one of the two reserved values (R86, R88). -/
theorem condCode_legal (cc : Cond) : condCode cc ≠ 6#3 ∧ condCode cc ≠ 7#3 := by
  cases cc <;> decide

theorem decode_encode_cmpInstr (cc : Cond) (ra rb : ElemReg) :
    decode (encode (cmpInstr cc ra rb)) = .ok (cmpInstr cc ra rb) := by
  simp [encode_cmpInstr, decode, opReserved, condReserved, mustBeZeroSet, selectCommand, condCode_legal]

/-- Every command decodes from its own word (R88): each field of the word is the operand put there. -/
theorem decode_encode (i : Instr) : decode (encode i) = .ok i := by
  cases i with
  | lde | add | sub | mul | inv =>
    simp [encode, decode, opReserved, condReserved, mustBeZeroSet, selectCommand]
  | cmpEq ra rb => exact decode_encode_cmpInstr .eq ra rb
  | cmpNe ra rb => exact decode_encode_cmpInstr .ne ra rb
  | cmpLt ra rb => exact decode_encode_cmpInstr .lt ra rb
  | cmpGt ra rb => exact decode_encode_cmpInstr .gt ra rb
  | cmpLe ra rb => exact decode_encode_cmpInstr .le ra rb
  | cmpGe ra rb => exact decode_encode_cmpInstr .ge ra rb

/-- Settles O1: the word's fields are the command's operands. -/
theorem decodeOfEncode : Obligations.DecodeOfEncode := by
  unfold Obligations.DecodeOfEncode
  exact decode_encode

/-- Settles O2: a word that passes the checks is put together again from its fields. -/
theorem encodeOfDecode : Obligations.EncodeOfDecode := by
  unfold Obligations.EncodeOfDecode
  intro w i h
  exact encode_of_decode h

/-! ### The rows of R87 -/

/-- The word of every command lies in its row. -/
theorem encode_and_rowMask (i : Instr) : encode i &&& rowMask i.row = rowMatch i.row := by
  cases i with
  | lde rd coef mod char => exact Laws.EncodingRow.lde rd coef mod char
  | add rd ra rb => exact Laws.EncodingRow.add rd ra rb
  | sub rd ra rb => exact Laws.EncodingRow.sub rd ra rb
  | mul rd ra rb => exact Laws.EncodingRow.mul rd ra rb
  | inv rd ra => exact Laws.EncodingRow.inv rd ra
  | cmpEq ra rb => exact Laws.EncodingRow.cmpEq ra rb
  | cmpNe ra rb => exact Laws.EncodingRow.cmpNe ra rb
  | cmpLt ra rb => exact Laws.EncodingRow.cmpLt ra rb
  | cmpGt ra rb => exact Laws.EncodingRow.cmpGt ra rb
  | cmpLe ra rb => exact Laws.EncodingRow.cmpLe ra rb
  | cmpGe ra rb => exact Laws.EncodingRow.cmpGe ra rb

/-- A field that a row's mask covers has the match's bits in every word of the row. -/
theorem extractLsb'_of_row {w : Word} {c : Command} {start len : Nat} (h : w &&& rowMask c = rowMatch c)
    (covered : (rowMask c).extractLsb' start len = BitVec.allOnes len) :
    w.extractLsb' start len = (rowMatch c).extractLsb' start len := by
  rw [← h, BitVec.extractLsb'_and, covered, BitVec.and_allOnes]

@[simp] theorem row_cmpInstr (cc : Cond) (ra rb : ElemReg) : (cmpInstr cc ra rb).row = .cmp cc := by
  cases cc <;> rfl

/-- Every word of a row passes the checks of R88 and selects a command of the row: its mask covers OP, and COND and the
must-be-zero fields where the row fixes them. -/
theorem exists_decode_of_row {w : Word} {c : Command} (h : w &&& rowMask c = rowMatch c) :
    ∃ i, decode w = .ok i ∧ i.row = c := by
  have field {start len : Nat} := extractLsb'_of_row (start := start) (len := len) h
  refine ⟨selectCommand w, ?_⟩
  cases c with
  | lde =>
    have op : opField w = 0x1 := field (by decide)
    have rsv : rsvFieldL w = 0 := field (by decide)
    simp [decode, opReserved, condReserved, mustBeZeroSet, selectCommand, Instr.row, op, rsv]
  | add | sub | mul =>
    have op : opField w = (rowMatch _).extractLsb' 0 4 := field (by decide)
    have cond : condField w = 0 := field (by decide)
    have rsv : rsvFieldR w = 0 := field (by decide)
    simp [decode, opReserved, condReserved, mustBeZeroSet, selectCommand, Instr.row, rowMatch, op, cond, rsv]
  | inv =>
    have op : opField w = 0x5 := field (by decide)
    have rb : rbField w = 0 := field (by decide)
    have cond : condField w = 0 := field (by decide)
    have rsv : rsvFieldR w = 0 := field (by decide)
    simp [decode, opReserved, condReserved, mustBeZeroSet, selectCommand, Instr.row, op, rb, cond, rsv]
  | cmp cc =>
    have op : opField w = 0x6 := by cases cc <;> exact field (by decide)
    have rd : rdField w = 0 := by cases cc <;> exact field (by decide)
    have cond : condField w = condCode cc := by cases cc <;> exact field (by decide)
    have rsv : rsvFieldR w = 0 := by cases cc <;> exact field (by decide)
    simp [decode, opReserved, condReserved, mustBeZeroSet, selectCommand, condCode_legal, op, rd, cond, rsv]

/-- A word decodes to a command of a row exactly when it lies in the row. -/
theorem decode_row_iff (w : Word) (c : Command) :
    (∃ i, decode w = .ok i ∧ i.row = c) ↔ w &&& rowMask c = rowMatch c := by
  refine ⟨?_, exists_decode_of_row⟩
  rintro ⟨i, hd, rfl⟩
  rw [← encode_of_decode hd]
  exact encode_and_rowMask i

/-- Settles O3: a word has one meaning, whose row is the one row it lies in. -/
theorem decodeIsTheMatchingRow : Obligations.DecodeIsTheMatchingRow := by
  unfold Obligations.DecodeIsTheMatchingRow
  refine ⟨decode_row_iff, fun w c d hc hd => ?_, fun w none => ?_⟩
  · obtain ⟨i, hi, rfl⟩ := (decode_row_iff w c).2 hc
    obtain ⟨j, hj, rfl⟩ := (decode_row_iff w d).2 hd
    exact congrArg Instr.row (Except.ok.inj (hi.symm.trans hj))
  · cases hd : decode w with
    | error k => exact ⟨k, rfl⟩
    | ok i => exact absurd ((decode_row_iff w i.row).1 ⟨i, hd, rfl⟩) (none i.row)

/-! ### The checks of R88 on the numeric value of a word -/

/-- A field's value, from the word's: the word shifted down and cut to the field's width (R81 to R83). -/
theorem extractLsb'_toNat_div (w : Word) (start len : Nat) :
    (w.extractLsb' start len).toNat = w.toNat / 2 ^ start % 2 ^ len := by
  rw [BitVec.extractLsb'_toNat, Nat.shiftRight_eq_div_pow]

/-- A field that reaches up to bit 31 has every bit from its start on. -/
theorem extractLsb'_toNat_top (w : Word) {start len : Nat} (h : start + len = 32) :
    (w.extractLsb' start len).toNat = w.toNat / 2 ^ start := by
  rw [extractLsb'_toNat_div]
  exact Nat.mod_eq_of_lt (Nat.div_lt_of_lt_mul (by rw [← pow_add, h]; exact w.isLt))

theorem opField_toNat (w : Word) : (opField w).toNat = w.toNat % 16 :=
  (extractLsb'_toNat_div w 0 4).trans (by simp)

theorem opField_eq_iff (w : Word) (op : BitVec 4) : opField w = op ↔ w.toNat % 16 = op.toNat := by
  rw [← BitVec.toNat_inj, opField_toNat]

theorem condField_eq_iff (w : Word) (c : BitVec 3) : condField w = c ↔ w.toNat / 2 ^ 10 % 8 = c.toNat := by
  rw [← BitVec.toNat_inj]
  exact Eq.congr_left (extractLsb'_toNat_div w 10 3)

theorem rdField_eq_iff (w : Word) (r : BitVec 2) : rdField w = r ↔ w.toNat / 2 ^ 4 % 4 = r.toNat := by
  rw [← BitVec.toNat_inj]
  exact Eq.congr_left (extractLsb'_toNat_div w 4 2)

theorem rbField_eq_iff (w : Word) (r : BitVec 2) : rbField w = r ↔ w.toNat / 2 ^ 8 % 4 = r.toNat := by
  rw [← BitVec.toNat_inj]
  exact Eq.congr_left (extractLsb'_toNat_div w 8 2)

theorem rsvFieldR_eq_iff (w : Word) (v : BitVec 19) : rsvFieldR w = v ↔ w.toNat / 2 ^ 13 = v.toNat := by
  rw [← BitVec.toNat_inj]
  exact Eq.congr_left (extractLsb'_toNat_top w rfl)

theorem rsvFieldL_eq_iff (w : Word) (v : BitVec 5) : rsvFieldL w = v ↔ w.toNat / 2 ^ 27 = v.toNat := by
  rw [← BitVec.toNat_inj]
  exact Eq.congr_left (extractLsb'_toNat_top w rfl)

theorem opReserved_iff (w : Word) : opReserved w = true ↔ w.toNat % 16 = 0 ∨ 7 ≤ w.toNat % 16 := by
  simp [opReserved, opField_eq_iff]
  omega

theorem condReserved_iff (w : Word) :
    condReserved w = true ↔ w.toNat % 16 = 6 ∧ 6 ≤ w.toNat / 2 ^ 10 % 8 := by
  simp [condReserved, opField_eq_iff, condField_eq_iff]
  omega

theorem mustBeZeroSet_iff (w : Word) :
    mustBeZeroSet w = true ↔
      (w.toNat % 16 = 1 ∧ w.toNat / 2 ^ 27 ≠ 0)
      ∨ (2 ≤ w.toNat % 16 ∧ w.toNat % 16 ≤ 4 ∧ w.toNat / 2 ^ 10 ≠ 0)
      ∨ (w.toNat % 16 = 5 ∧ w.toNat / 2 ^ 8 ≠ 0)
      ∨ (w.toNat % 16 = 6 ∧ (w.toNat / 2 ^ 13 ≠ 0 ∨ w.toNat / 2 ^ 4 % 4 ≠ 0)) := by
  simp [mustBeZeroSet, opField_eq_iff, condField_eq_iff, rdField_eq_iff, rbField_eq_iff, rsvFieldR_eq_iff,
    rsvFieldL_eq_iff]
  omega

/-- The first check that fails gives the sub-cause (R88). -/
theorem decode_eq_error_iff (w : Word) :
    (decode w = .error .reservedOp ↔ opReserved w = true)
    ∧ (decode w = .error .reservedCond ↔ ¬opReserved w = true ∧ condReserved w = true)
    ∧ (decode w = .error .mustBeZero ↔ ¬opReserved w = true ∧ ¬condReserved w = true ∧ mustBeZeroSet w = true) := by
  unfold decode
  split_ifs with hop hcond hzero <;> simp [*]

/-- Settles O4: each check on the word's numeric value, and the checks before it passed. -/
theorem illegalWordSubCause : Obligations.IllegalWordSubCause := by
  unfold Obligations.IllegalWordSubCause
  intro w
  obtain ⟨op, cond, zero⟩ := decode_eq_error_iff w
  rw [op, cond, zero, opReserved_iff, condReserved_iff, mustBeZeroSet_iff]
  exact ⟨Iff.rfl, by omega, by omega⟩

/-! ### The assembler (R90) -/

/-- Format R's formula. -/
theorem formatR_toNat (cond : BitVec 3) (rb ra rd : BitVec 2) (op : BitVec 4) :
    (formatR cond rb ra rd op).toNat =
      op.toNat ||| rd.toNat <<< 4 ||| ra.toNat <<< 6 ||| rb.toNat <<< 8 ||| cond.toNat <<< 10 := by
  change (((((0#19).toNat <<< 3 ||| cond.toNat) <<< 2 ||| rb.toNat) <<< 2 ||| ra.toNat) <<< 2 ||| rd.toNat) <<< 4
    ||| op.toNat = _
  simp [Nat.shiftLeft_or_distrib, ← Nat.shiftLeft_add, Nat.or_comm, Nat.or_assoc]

/-- Format L's formula. -/
theorem formatL_toNat (mod : Modulus) (coef : Coef) (char : Charac) (rd : BitVec 2) :
    (formatL mod coef char rd).toNat =
      0x1 ||| rd.toNat <<< 4 ||| char.toNat <<< 6 ||| coef.toNat <<< 10 ||| mod.toNat <<< 18 := by
  change (((((0#5).toNat <<< 9 ||| mod.toNat) <<< 8 ||| coef.toNat) <<< 4 ||| char.toNat) <<< 2 ||| rd.toNat) <<< 4
    ||| 1 = _
  simp [Nat.shiftLeft_or_distrib, ← Nat.shiftLeft_add, Nat.or_comm, Nat.or_assoc]

/-- The index of the register a numeral 0 to 3 names is the numeral. -/
theorem ElemReg.ofNumeral_toNat {k : Nat} (h : k ≤ 3) : (ElemReg.ofNumeral k).toBits.toNat = k := by
  simp [ElemReg.ofNumeral]
  omega

/-- The word of a well-formed line is its formula: every operand keeps its value in its field. -/
theorem encode_command_toNat {a : AsmLine} (h : a.wellFormed = true) : (encode a.command).toNat = lineFormula a := by
  cases a with
  | lde ed coef mod char =>
    simp only [AsmLine.wellFormed, registerInRange, coefInRange, modInRange, charInRange, Bool.and_eq_true,
      decide_eq_true_eq] at h
    obtain ⟨⟨⟨hed, hcoef⟩, hmod⟩, hchar⟩ := h
    simp (disch := omega) [AsmLine.command, encode, lineFormula, formatL_toNat, ElemReg.ofNumeral_toNat,
      Nat.mod_eq_of_lt]
  | add | sub | mul | inv =>
    simp only [AsmLine.wellFormed, registerInRange, Bool.and_eq_true, decide_eq_true_eq] at h
    simp [AsmLine.command, encode, lineFormula, formatR_toNat, ElemReg.ofNumeral_toNat, h]
  | cmp cc ea eb =>
    simp only [AsmLine.wellFormed, registerInRange, Bool.and_eq_true, decide_eq_true_eq] at h
    simp [AsmLine.command, encode_cmpInstr, lineFormula, formatR_toNat, ElemReg.ofNumeral_toNat, h]

/-- Settles O6: the assembler's word is the formula's value, which fits in 32 bits as every word does. -/
theorem assemblerFollowsFormulas : Obligations.AssemblerFollowsFormulas := by
  unfold Obligations.AssemblerFollowsFormulas
  intro a
  refine ⟨fun wf => ?_, fun ill => by simp [AsmLine.assemble, ill]⟩
  rw [← encode_command_toNat wf, BitVec.ofNat_toNat, BitVec.setWidth_eq]
  exact ⟨if_pos wf, (encode a.command).isLt⟩

end Sys2Proof

/-! ## What each command does (40_construct.md) -/

namespace Sys2Proof.Machine

open Sys2Proof Sys2Proof.Claims

/-- Settles O21: `Config.nMax` is 8, the one bound LDE checks. -/
theorem ldeStoresAsGiven : Obligations.LdeStoresAsGiven := by
  unfold Obligations.LdeStoresAsGiven
  intro s rd coef mod char
  refine ⟨fun legal => exec_lde_legal s rd coef mod legal, fun above => ?_⟩
  have illegal : ¬ char.toNat ≤ Config.nMax := Nat.not_le.mpr above
  exact raisesError_of_commitError (exec_lde_illegal s rd coef mod illegal)

end Sys2Proof.Machine

/-! ## Addition and subtraction (41_addsub.md) -/

namespace Sys2Proof.Machine

open Sys2Proof Sys2Proof.Claims

/-- ADD's error is SUB's: both commit the one adder's result, each under its own word (R122). -/
theorem exec_addSub_error {s : State} {rd ra rb : ElemReg} {c : ErrorCause} (h : addResult rd ra rb s = .error c) :
    exec (.add rd ra rb) s = .next (s.commitError (encode (.add rd ra rb)) c)
      ∧ exec (.sub rd ra rb) s = .next (s.commitError (encode (.sub rd ra rb)) c) := by
  simp [exec, execAdd, execSub, h]

/-- Two commits of one error differ in ERRCMD only (R207). -/
theorem State.commitError_setErrcmd (s : State) (w v : Word) (c : ErrorCause) :
    { s.commitError w c with errcmd := v } = s.commitError v c := rfl

/-- Settles O23: the adder's one result decides both commands; only the error record names the command. -/
theorem subAgreesWithAdd : Obligations.SubAgreesWithAdd := by
  unfold Obligations.SubAgreesWithAdd
  intro s rd ra rb
  rcases addResult_cases rd ra rb s with ⟨ha, hb, -⟩ | ⟨c, herr⟩
  · obtain ⟨add, sub⟩ := exec_addSub_valid rd ha hb
    exact ⟨_, add, .inl ⟨State.setElem_errcmd s rd _, sub⟩⟩
  · obtain ⟨add, sub⟩ := exec_addSub_error herr
    refine ⟨_, add, .inr ⟨⟨c, recordsError_commitError s _ c⟩, ?_⟩⟩
    rw [State.commitError_setErrcmd]
    exact sub

/-- Settles O22: the adder's element, written out, is the XOR of the full COEF fields under the first operand's MOD and CHAR. -/
theorem addSubResult : Obligations.AddSubResult := by
  unfold Obligations.AddSubResult
  intro s rd ra rb ha hb
  exact exec_addSub_valid rd ha hb

end Sys2Proof.Machine

/-! ## Multiplication (42_multiply.md) -/

namespace Sys2Proof.Machine

open Sys2Proof Sys2Proof.Claims

/-- Settles O25: every check of R134 passes, so MUL's commit is its one write; both sources are read before rd is written, so
the registers need not differ (R248). -/
theorem mulResult : Obligations.MulResult := by
  unfold Obligations.MulResult
  intro s rd ra rb ready
  exact exec_mul_ready rd ready

end Sys2Proof.Machine

/-! ## Comparisons (43_compare.md) -/

namespace Sys2Proof.Machine

open Sys2Proof Sys2Proof.Claims

/-- CMP.EQ compares values: two COEF fields are one word exactly if their unsigned values agree (R151). -/
theorem relationHolds_eq_eq_decide_toNat (x y : Coef) : relationHolds .eq x y = decide (x.toNat = y.toNat) := by
  simp [relationHolds, BitVec.toNat_inj, beq_eq_decide]

/-- CMP.NE compares values (R152). -/
theorem relationHolds_ne_eq_decide_toNat (x y : Coef) : relationHolds .ne x y = decide (x.toNat ≠ y.toNat) := by
  change (!relationHolds .eq x y) = _
  rw [relationHolds_eq_eq_decide_toNat, decide_not]

/-- Settles O31: each command is the shared datapath at its own relation. The four order relations are by definition those of
the unsigned values; the equality and inequality of words are those of their values because a word is its value. -/
theorem exec_compareResult : Obligations.CompareResult := by
  unfold Obligations.CompareResult
  intro s ra rb ha hb x y
  have run (cc : Cond) := exec_cmpInstr_valid cc ha hb
  have eq := run .eq
  rw [relationHolds_eq_eq_decide_toNat] at eq
  have ne := run .ne
  rw [relationHolds_ne_eq_decide_toNat] at ne
  exact ⟨eq, ne, run .lt, run .gt, run .le, run .ge⟩

end Sys2Proof.Machine

/-! ## Inversion (44_inverse.md) -/

namespace Sys2Proof.Machine

open Sys2Proof Sys2Proof.Claims

/-- The product of anything and 0 is 0: the loop is left with its first product (R132, R136). -/
theorem gfmul_zero (a : Coef) (mod : Modulus) (n : Nat) : gfmul a 0 mod n = 0 := by
  have hz : (mulStart a 0 n).multiplier = 0 := BitVec.zero_and
  unfold gfmul
  cases n with
  | zero => rfl
  | succ n => rw [mulLoop_exit (.inr hz)]; rfl

/-- What the search finds is an inverse: it is not 0, whose product is 0 (R170, R175). -/
theorem isInverse_of_invSearch {p c : Coef} {mod : Modulus} {n : Nat} (h : invSearch p mod n = some c) :
    IsInverse p mod n c := by
  obtain ⟨-, -, -, hone⟩ := searchFrom_some h
  refine ⟨?_, invSearch_toNat_lt h, hone⟩
  by_contra hzero
  have hc : c = 0 := BitVec.eq_of_toNat_eq (show c.toNat = 0 by omega)
  rw [hc, gfmul_zero] at hone
  exact absurd hone (by decide)

/-- The search answers the first of its candidates whose product is 1 (R170, R172). -/
theorem searchFrom_first {p : Coef} {mod : Modulus} {n left k : Nat} {c : BitVec 9} (hk : k < left)
    (hone : gfmul p ((c + BitVec.ofNat 9 k).setWidth 8) mod n = 1)
    (hbefore : ∀ j < k, gfmul p ((c + BitVec.ofNat 9 j).setWidth 8) mod n ≠ 1) :
    searchFrom p mod n left c = some ((c + BitVec.ofNat 9 k).setWidth 8) := by
  induction left generalizing c k with
  | zero => omega
  | succ left ih =>
    cases k with
    | zero =>
      rw [BitVec.add_zero] at hone ⊢
      exact searchFrom_found hone
    | succ k =>
      have hc : gfmul p (c.setWidth 8) mod n ≠ 1 := by simpa using hbefore 0 (Nat.succ_pos k)
      rw [searchFrom_next hc, ← succ_candidate]
      refine ih (Nat.lt_of_succ_lt_succ hk) (by rwa [succ_candidate]) fun j hj => ?_
      rw [succ_candidate]
      exact hbefore (j + 1) (Nat.succ_lt_succ hj)

/-- The search finds the smallest inverse: a candidate tried before it would be a smaller one (R170, R172). -/
theorem invSearch_of_least_isInverse {p c : Coef} {mod : Modulus} {n : Nat} (h : IsInverse p mod n c)
    (least : ∀ d, IsInverse p mod n d → c.toNat ≤ d.toNat) : invSearch p mod n = some c := by
  obtain ⟨hpos, hlt, hone⟩ := h
  have hc256 : c.toNat < 256 := c.isLt
  have hc : (1 + BitVec.ofNat 9 (c.toNat - 1) : BitVec 9).setWidth 8 = c := by
    apply BitVec.eq_of_toNat_eq
    rw [candidate_toNat]
    omega
  have hfound := searchFrom_first (p := p) (mod := mod) (n := n) (left := 2 ^ n - 1) (k := c.toNat - 1) (c := 1)
    (by omega) (by rwa [hc]) fun j hj hj1 => ?_
  · rwa [hc] at hfound
  · have hd := candidate_toNat j
    have := least _ ⟨by omega, by omega, hj1⟩
    omega

/-- Settles O27: the smallest inverse is the one the search finds. -/
theorem invWritesSmallestInverse : Obligations.InvWritesSmallestInverse := by
  unfold Obligations.InvWritesSmallestInverse
  intro s rd ra c ready hc least
  exact exec_inv_found rd ready (invSearch_of_least_isInverse hc least)

/-- Settles O28: what the search found would be an inverse, so it finds nothing. -/
theorem invRaisesNoInverse : Obligations.InvRaisesNoInverse := by
  unfold Obligations.InvRaisesNoInverse
  intro s rd ra ready hnone
  obtain ⟨ha, hmod, hchar⟩ := ready
  have hsearch : invSearch (s.elem ra).coef (s.elem ra).mod (s.elem ra).char.toNat = none :=
    Option.eq_none_iff_forall_ne_some.mpr fun c hc => hnone c (isInverse_of_invSearch hc)
  refine raisesError_of_commitError (c := .noInverse) ?_
  rw [exec_inv_valid rd ha, if_neg hmod, if_neg hchar, hsearch]
  rfl

/-- Settles O29: INV of a valid operand takes the branch of its first failing check. -/
theorem invChecksInOrder : Obligations.InvChecksInOrder := by
  unfold Obligations.InvChecksInOrder
  intro s rd ra ha
  refine ⟨fun hmod => raisesError_of_commitError (c := .modZero) ?_,
    fun hmod hchar => raisesError_of_commitError (c := .charZero) ?_⟩
  · rw [exec_inv_valid rd ha, if_pos hmod]
  · rw [exec_inv_valid rd ha, if_neg hmod, if_pos hchar]

end Sys2Proof.Machine

/-! ## Errors and the halt until reset (60_exceptions.md) -/

namespace Sys2Proof.Machine

open Sys2Proof Sys2Proof.Claims

/-! ### The sequencer's step -/

/-- The sequencer's step on a pending word executes it (R57). -/
theorem step_of_pending {s : State} {w : Word} (turn : s.nextTurn = .sequencer) (hp : s.pending = some w) :
    step s = executeWord w s.popTurn := by
  simp [step, turn, runTurn, sequencerTurn, hp]

/-- The sequencer's step on an illegal word commits its IllegalCommand (R204). -/
theorem step_of_illegal {s : State} {w : Word} {k : IllegalKind} (turn : s.nextTurn = .sequencer)
    (hp : s.pending = some w) (hd : decode w = .error k) :
    step s = .next (s.popTurn.commitError w (illegalCause k)).retire := by
  rw [step_of_pending turn hp]
  simp [executeWord, hd]

/-- With no turn listed there is none to take up (log 3). -/
theorem popTurn_of_turns_nil {s : State} (ended : s.turns = []) : s.popTurn = s := by
  unfold State.popTurn
  rw [ended, List.tail_nil, ← ended]

/-- With PENDING empty the sequencer's step takes up its turn and does nothing else (R218). -/
theorem step_of_idle {s : State} (turn : s.nextTurn = .sequencer) (empty : s.pending = none) :
    step s = .next s.popTurn := by
  simp [step, turn, runTurn, sequencerTurn, empty]

/-- Settles O8: the step is the error commit of the failing check's cause, whose row of R201 has the codes stated. -/
theorem illegalWordTakesError : Obligations.IllegalWordTakesError := by
  unfold Obligations.IllegalWordTakesError
  intro s w k turn hp hd
  have code : (illegalCause k).code = 3 := by cases k <;> rfl
  refine ⟨_, step_of_illegal turn hp hd, rfl, code, ?_, rfl, rfl, rfl, rfl, rfl, rfl, rfl, rfl⟩
  cases k <;> rfl

/-- Settles O9: executing the word answers a retired state, whatever the word is; what the step can do to the error record and
to DROP then leaves the two outcomes of R207. -/
theorem commitWritesResultOrErrorRecord : Obligations.CommitWritesResultOrErrorRecord := by
  unfold Obligations.CommitWritesResultOrErrorRecord
  intro s w turn hp
  obtain ⟨u, executed, turns, returned⟩ := executeWord_next w s.popTurn
  have h : step s = .next u.retire := (step_of_pending turn hp).trans executed
  have noReset : s.nextTurn ≠ .reset := by simp [turn]
  have drop : u.retire.status.drop = s.status.drop := by
    rcases step_drop h with ⟨same, -⟩ | reset | ⟨⟨-, v, write⟩, -⟩
    · exact same
    · exact absurd reset noReset
    · simp [turn] at write
  refine ⟨_, h, rfl, rfl, drop, returned, turns, ?_⟩
  rcases step_record h with same | ⟨reset, -⟩ | ⟨w', c, -, hp', eq⟩
  · exact .inl same
  · exact absurd reset noReset
  · obtain rfl : w = w' := Option.some.inj (hp.symm.trans hp')
    rw [eq]
    exact .inr ⟨c, rfl, rfl, rfl, rfl, rfl, rfl⟩

/-! ### The checks of a command -/

/-- Settles O24: a command reads its first source before its second. -/
theorem uninitialisedOperandRaises : Obligations.UninitialisedOperandRaises := by
  unfold Obligations.UninitialisedOperandRaises
  intro i s ra hra
  exact ⟨fun invalid => raisesError_of_commitError (exec_firstSource_invalid hra invalid),
    fun rb hrb valid invalid => raisesError_of_commitError (exec_secondSource_invalid hra hrb valid invalid)⟩

/-- Settles O26: MUL of valid operands takes the branch of its first failing check. -/
theorem mulChecksInOrder : Obligations.MulChecksInOrder := by
  unfold Obligations.MulChecksInOrder
  intro s rd ra rb ha hb
  have run := exec_mul_valid rd ha hb
  refine ⟨fun mismatch => raisesError_of_commitError (c := .modMismatch) ?_,
    fun hmod zero => raisesError_of_commitError (c := .modZero) ?_,
    fun hmod hmod0 mismatch => raisesError_of_commitError (c := .charMismatch) ?_,
    fun hmod hmod0 hchar zero => raisesError_of_commitError (c := .charZero) ?_⟩
  · rw [run, if_pos mismatch]
  · rw [run, if_neg (not_not_intro hmod), if_pos zero]
  · rw [run, if_neg (not_not_intro hmod), if_neg hmod0, if_pos mismatch]
  · rw [run, if_neg (not_not_intro hmod), if_neg hmod0, if_neg (not_not_intro hchar), if_pos zero]

/-! ### The halt -/

/-- A halted block with nothing pending can only idle, answer a read, or drop a CMD write, until it is reset (R31, R209). -/
theorem step_of_halted {s t : State} (halted : s.status.err = true) (empty : s.pending = none)
    (noReset : s.nextTurn ≠ .reset) (h : step s = .next t) :
    t = s.popTurn ∨ (∃ v, t = s.popTurn.giveHost v) ∨
      t = { s.popTurn with status := { s.status with drop := true } } := by
  cases step_effect h with
  | idle _ _ eq | ignored _ _ eq => exact .inl eq
  | read v _ _ eq => exact .inr (.inl ⟨v, eq⟩)
  | dropped _ _ _ eq => exact .inr (.inr eq)
  | reset turn _ => exact absurd turn noReset
  | accepted _ _ _ running _ => simp [halted] at running
  | error w _ _ pend _ => simp [empty] at pend
  | element written => obtain ⟨w, i, rd, e, -, pend, -⟩ := written; simp [empty] at pend
  | cmpf written => obtain ⟨w, cc, ra, rb, -, pend, -⟩ := written; simp [empty] at pend

/-- The step of a reset turn resets the block (R240). -/
theorem step_of_reset {s : State} (turn : s.nextTurn = .reset) : step s = .next s.popTurn.resetBlock := by
  simp [step, turn, runTurn]

/-- Settles O41: coherence leaves a halted block no command, so no step but reset writes more than DROP; reset clears ERR and
BUSY, and then CMD takes any word. -/
theorem haltedUntilReset : Obligations.HaltedUntilReset := by
  unfold Obligations.HaltedUntilReset
  refine ⟨fun s t coherent halted noReset h => ?_, fun s t turn h => ?_⟩
  · obtain ⟨-, haltedHasNoCommand, -⟩ := coherent
    have empty : s.pending = none := haltedHasNoCommand halted
    rcases step_of_halted halted empty noReset h with rfl | ⟨v, rfl⟩ | rfl <;>
      exact ⟨⟨rfl, rfl, rfl, rfl⟩, rfl, rfl, empty, rfl⟩
  · cases (step_of_reset turn).symm.trans h
    exact ⟨rfl, rfl, rfl, rfl, fun _ => rfl⟩

/-- Settles O11: an idle turn is only taken up, and with no turn listed there is none to take. -/
theorem idleSequencerKeepsState : Obligations.IdleSequencerKeepsState := by
  unfold Obligations.IdleSequencerKeepsState
  intro s turn empty
  have idle := step_of_idle turn empty
  refine ⟨idle, fun ended => ?_⟩
  rwa [popTurn_of_turns_nil ended] at idle

end Sys2Proof.Machine

/-! ## Progress: every accepted command commits (70_reset_and_hazards.md) -/

namespace Sys2Proof.Machine

open Sys2Proof Sys2Proof.Claims

/-! ### A run takes one turn each step -/

/-- With no turn listed the sequencer has the turn (R250; log 3). -/
theorem nextTurn_of_turns_nil {s : State} (ended : s.turns = []) : s.nextTurn = .sequencer := by
  simp only [State.nextTurn, ended]

/-- The first listed turn is the next one. -/
theorem nextTurn_of_turns_cons {s : State} {t : Turn} {ts : List Turn} (listed : s.turns = t :: ts) :
    s.nextTurn = t := by
  simp only [State.nextTurn, listed]

/-- A step takes up one turn, whatever the turn does. -/
theorem step_turns {s t : State} (h : step s = .next t) : t.turns = s.turns.tail := by
  cases step_effect h with
  | element written => obtain ⟨w, i, rd, e, -, -, -, -, -, -, rfl⟩ := written; rfl
  | cmpf written => obtain ⟨w, cc, ra, rb, -, -, -, -, -, rfl⟩ := written; rfl
  | idle _ _ eq | error _ _ _ _ eq | read _ _ _ eq | ignored _ _ eq | accepted _ _ _ _ eq | dropped _ _ _ eq
  | reset _ eq => subst eq; rfl

/-- A turn that is no host access, or an admitted one, has a step (R53, R57). -/
theorem exists_step_of_safe {s : State} (safe : s.nextTurn.Safe) : ∃ t, step s = .next t := by
  cases turn : s.nextTurn with
  | sequencer =>
    cases hp : s.pending with
    | none => exact ⟨_, step_of_idle turn hp⟩
    | some w =>
      obtain ⟨u, executed, -⟩ := executeWord_next w s.popTurn
      exact ⟨_, (step_of_pending turn hp).trans executed⟩
  | host a =>
    obtain ⟨hlo, hhi, width, align⟩ := safe a turn
    obtain ⟨inside, -⟩ := unadmittedAccessHasNoStep s a turn
    obtain ⟨-, -, admitted⟩ := inside hlo hhi
    exact admitted width align
  | reset => exact ⟨_, step_of_reset turn⟩

/-- A machine with a safe turn listed takes it up and has the others left. -/
theorem exists_step_of_turns_cons {s : State} {t : Turn} {ts : List Turn} (listed : s.turns = t :: ts)
    (safe : t.Safe) : ∃ u, step s = .next u ∧ u.turns = ts := by
  obtain ⟨u, h⟩ := exists_step_of_safe (s := s) (by rwa [nextTurn_of_turns_cons listed])
  exact ⟨u, h, by rw [step_turns h, listed, List.tail_cons]⟩

/-- After the sequencer's step no command is pending (R57, R58). -/
theorem step_sequencer_pending {s t : State} (turn : s.nextTurn = .sequencer) (h : step s = .next t) :
    t.pending = none := by
  rcases step_command h with ⟨-, -, kept, idle⟩ | ⟨-, empty⟩ | ⟨v, write, -⟩
  · exact kept.trans (idle turn)
  · exact empty
  · simp [turn] at write

/-- A run of one step more ends with a step from where the shorter one ended. -/
theorem run_succ_of_run (M : Host.Core) {k : Nat} {s v : M.State} (h : M.run k s = .next v) :
    M.run (k + 1) s = M.step v := by
  induction k generalizing s with
  | zero =>
    cases h
    simp only [Host.Core.run]
    cases M.step v <;> rfl
  | succ k ih =>
    cases hs : M.step s with
    | next t =>
      rw [run_succ M hs] at h ⊢
      exact ih h
    | fault f => simp [Host.Core.run, hs] at h
    | refused r => simp [Host.Core.run, hs] at h

/-- Safe turns are all taken, and the turn after them, the sequencer's, leaves no command pending (R250). -/
theorem run_past_turns {s : State} (safe : ∀ t ∈ s.turns, t.Safe) :
    ∃ u : State, Host.Core.run core (s.turns.length + 1) s = .next u ∧ u.turns = [] ∧ u.pending = none := by
  induction hts : s.turns generalizing s with
  | nil =>
    have turn := nextTurn_of_turns_nil hts
    obtain ⟨u, h⟩ := exists_step_of_safe (s := s) (by simp [turn, Turn.Safe])
    exact ⟨u, run_succ core h 0, by rw [step_turns h, hts, List.tail_nil], step_sequencer_pending turn h⟩
  | cons t ts ih =>
    obtain ⟨safeNext, safeRest⟩ := List.forall_mem_cons.mp (hts ▸ safe)
    obtain ⟨s₁, h, rest⟩ := exists_step_of_turns_cons hts safeNext
    obtain ⟨u, run, ended⟩ := ih (rest ▸ safeRest) rest
    exact ⟨u, (run_succ core h _).trans run, ended⟩

/-! ### The host's turns before the sequencer's -/

/-- The pending word and everything its execution reads or can write are as before, and BUSY is 1 (R58). -/
structure CommandWaits (s v : State) : Prop where
  busy : v.status.busy = true
  pending : v.pending = s.pending
  elems : v.elems = s.elems
  cmpf : v.status.cmpf = s.status.cmpf
  record : SameErrorRecord s v

theorem CommandWaits.refl {s : State} (busy : s.status.busy = true) : CommandWaits s s :=
  ⟨busy, rfl, rfl, rfl, rfl, rfl, rfl, rfl⟩

theorem SameErrorRecord.trans {s u v : State} :
    SameErrorRecord s u → SameErrorRecord u v → SameErrorRecord s v := by
  rintro ⟨err, code, sub, cmd⟩ ⟨err', code', sub', cmd'⟩
  exact ⟨err'.trans err, code'.trans code, sub'.trans sub, cmd'.trans cmd⟩

theorem CommandWaits.trans {s u v : State} (first : CommandWaits s u) (later : CommandWaits u v) :
    CommandWaits s v where
  busy := later.busy
  pending := later.pending.trans first.pending
  elems := later.elems.trans first.elems
  cmpf := later.cmpf.trans first.cmpf
  record := SameErrorRecord.trans first.record later.record

/-- While BUSY = 1 a host turn leaves the command waiting (R58, R63). -/
theorem commandWaits_of_host {s t : State} {a : Access} (turn : s.nextTurn = .host a) (busy : s.status.busy = true)
    (h : step s = .next t) : CommandWaits s t := by
  obtain ⟨elems, cmpf, record, -, keeps⟩ := hostTurnKeepsResults s t a turn h
  obtain ⟨pending, busy⟩ := keeps busy
  exact { busy, pending, elems, cmpf, record }

/-- With no reset listed the host's turns before the sequencer's leave the command waiting (R58, R250). -/
theorem run_to_sequencer {s : State} (safe : ∀ t ∈ s.turns, t.Safe) (noReset : Turn.reset ∉ s.turns)
    (busy : s.status.busy = true) :
    ∃ (k : Nat) (v : State), k ≤ s.turns.length ∧ (∀ t ∈ s.turns.take k, ∃ a, t = .host a) ∧
      Host.Core.run core k s = .next v ∧ v.nextTurn = .sequencer ∧ CommandWaits s v := by
  induction hts : s.turns generalizing s with
  | nil => exact ⟨0, s, Nat.le_refl _, by simp, rfl, nextTurn_of_turns_nil hts, .refl busy⟩
  | cons t ts ih =>
    have turn := nextTurn_of_turns_cons hts
    cases t with
    | sequencer => exact ⟨0, s, Nat.zero_le _, by simp, rfl, turn, .refl busy⟩
    | reset => simp [hts] at noReset
    | host a =>
      obtain ⟨safeNext, safeRest⟩ := List.forall_mem_cons.mp (hts ▸ safe)
      have noResetLater : Turn.reset ∉ ts := List.not_mem_of_not_mem_cons (hts ▸ noReset)
      obtain ⟨s₁, h, rest⟩ := exists_step_of_turns_cons hts safeNext
      have waits := commandWaits_of_host turn busy h
      obtain ⟨k, v, hk, hosts, run, sequencer, later⟩ := ih (rest ▸ safeRest) (rest ▸ noResetLater) waits.busy rest
      refine ⟨k + 1, v, Nat.succ_le_succ hk, ?_, (run_succ core h k).trans run, sequencer, waits.trans later⟩
      rw [List.take_succ_cons, List.forall_mem_cons]
      exact ⟨⟨a, rfl⟩, hosts⟩

/-- Settles O43: the host's turns leave the command waiting until the sequencer's turn executes it, and any listed turns are all
taken before a last one of the sequencer. -/
theorem pendingCommandCommits : Obligations.PendingCommandCommits := by
  unfold Obligations.PendingCommandCommits
  intro s safe
  refine ⟨fun w hp busy noReset => ?_, run_past_turns safe⟩
  obtain ⟨k, v, hk, hosts, run, turn, waits⟩ := run_to_sequencer safe noReset busy
  have hpv : v.pending = some w := waits.pending.trans hp
  obtain ⟨u, executed, -⟩ := executeWord_next w v.popTurn
  have h : step v = .next u.retire := (step_of_pending turn hpv).trans executed
  exact ⟨k, v, u.retire, hk, hosts, run, turn, hpv, waits.elems, waits.cmpf, waits.record,
    (run_succ_of_run core run).trans h, executed, rfl, rfl⟩

end Sys2Proof.Machine

/-! ## The multiplier as an action of polynomials (42_multiply.md) -/

namespace Sys2Proof.Machine

open Sys2Proof Sys2Proof.Claims

/-! ### The early exit -/

/-- Once an operand is 0 no further iteration changes the product (R132). -/
theorem mulIteration_iterate_product_of_zero {mod : Modulus} {n : Nat} {k : Work}
    (h : k.multiplicand = 0 ∨ k.multiplier = 0) (j : Nat) : ((mulIteration mod n)^[j] k).product = k.product := by
  induction j generalizing k with
  | zero => rfl
  | succ j ih =>
    rw [Function.iterate_succ_apply, ih (mulIteration_keeps_zero h), mulIteration_product_of_zero h]

/-- The loop with the early exit has the product of the loop without it (R132). -/
theorem mulLoop_product (mod : Modulus) (n fuel : Nat) (k : Work) :
    (mulLoop mod n fuel k).product = ((mulIteration mod n)^[fuel] k).product := by
  induction fuel generalizing k with
  | zero => rfl
  | succ fuel ih =>
    by_cases h : k.multiplicand = 0 ∨ k.multiplier = 0
    · rw [mulLoop_exit h, mulIteration_iterate_product_of_zero h]
    · rw [mulLoop_iterate h, ih, Function.iterate_succ_apply]

/-- Settles O49: an iteration skipped by the early exit has a zero operand. -/
theorem earlyExitKeepsProduct : Obligations.EarlyExitKeepsProduct := by
  unfold Obligations.EarlyExitKeepsProduct
  intro a b mod n
  exact mulLoop_product mod n n (mulStart a b n)

/-! ### Operand masking -/

/-- Masking keeps a value below 2^n. -/
theorem and_mask_of_lt {a : Coef} {n : Nat} (h : a.toNat < 2 ^ n) : a &&& mask 8 n = a := by
  apply BitVec.eq_of_toNat_eq
  rw [and_mask_toNat, Nat.mod_eq_of_lt h]

/-- A masked operand is below 2^n. -/
theorem and_mask_toNat_lt (a : Coef) (n : Nat) : (a &&& mask 8 n).toNat < 2 ^ n := by
  rw [and_mask_toNat]
  exact Nat.mod_lt _ (Nat.two_pow_pos n)

/-- The operand with the value of a's low n bits is a, masked. -/
theorem ofNat_mod_two_pow (a : Coef) (n : Nat) : BitVec.ofNat 8 (a.toNat % 2 ^ n) = a &&& mask 8 n := by
  rw [← and_mask_toNat, BitVec.ofNat_toNat, BitVec.setWidth_eq]

/-- Masking the operands before the product changes nothing, since the product starts by masking them (R131). -/
theorem gfmul_and_mask (a b : Coef) (mod : Modulus) (n : Nat) :
    gfmul (a &&& mask 8 n) (b &&& mask 8 n) mod n = gfmul a b mod n := by
  simp only [gfmul, mulStart, and_mask_of_lt (and_mask_toNat_lt _ n)]

/-- Settles O50: the values modulo 2^n are the masked operands. -/
theorem gfmulIgnoresHighBits : Obligations.GfmulIgnoresHighBits := by
  unfold Obligations.GfmulIgnoresHighBits
  intro a b mod n _ _
  rw [ofNat_mod_two_pow, ofNat_mod_two_pow, gfmul_and_mask]

/-- Settles O44: the bound holds for every n. -/
theorem gfmulBelowFieldSize : Obligations.GfmulBelowFieldSize := by
  unfold Obligations.GfmulBelowFieldSize
  intro a b mod n _ _
  exact gfmul_toNat_lt a b mod n

/-! ### The fixed 8-bit variant -/

/-- With n = 8 one shift-and-reduce is the fixed variant's: carry from bit 7, low 8 bits of the modulus (R137). -/
theorem shiftReduce_eight (mod : Modulus) (m : BitVec 8) :
    shiftReduce mod 8 m = if m.getLsbD 7 then (m <<< 1) ^^^ mod.setWidth 8 else m <<< 1 := by
  apply BitVec.eq_of_getLsbD_eq
  intro i hi
  rw [shiftReduce_getLsbD mod 8 m i hi]
  cases i with
  | zero => cases m.getLsbD 7 <;> simp
  | succ i =>
    have below : m.getLsbD i = m[i] := BitVec.getLsbD_eq_getElem (by omega)
    cases m.getLsbD 7 <;> simp [hi, below]

/-- The fixed variant's loop is the iterations without the early exit at n = 8 (R137). -/
theorem fixedEightLoop_eq_iterate (mod : Modulus) (j : Nat) (k : Work) :
    fixedEightLoop mod j k.multiplicand k.multiplier k.product = ((mulIteration mod 8)^[j] k).product := by
  induction j generalizing k with
  | zero => rfl
  | succ j ih =>
    rw [Function.iterate_succ_apply, ← ih, fixedEightLoop, ← shiftReduce_eight]
    rfl

/-- Settles O51: without the early exit the two loops are the same, and masking to 8 bits keeps the operands. -/
theorem fixedEightBitVariantAgrees : Obligations.FixedEightBitVariantAgrees := by
  unfold Obligations.FixedEightBitVariantAgrees
  intro a b mod
  rw [earlyExitKeepsProduct, ← fixedEightLoop_eq_iterate]
  simp only [mulStart, and_mask_of_lt (n := 8) (BitVec.isLt _)]

/-! ### Polynomials as bitmasks (00_scope.md, section 5) -/

/-- A value is its bit 0 and the rest, shifted. -/
theorem testBit_zero_xor_shiftLeft (y : Nat) : ((if y.testBit 0 then 1 else 0) ^^^ (y / 2) <<< 1) = y := by
  refine Nat.eq_of_testBit_eq fun i => ?_
  rw [Nat.testBit_xor, Nat.testBit_shiftLeft]
  cases i with
  | zero => cases y.testBit 0 <;> rfl
  | succ i =>
    rw [Nat.testBit_add_one y]
    cases y.testBit 0 <;> simp [Nat.testBit_add_one]

/-- The low bits of a value, one bit more. -/
theorem mod_two_pow_succ_eq_xor (b k : Nat) :
    b % 2 ^ (k + 1) = b % 2 ^ k ^^^ if b.testBit k then 1 <<< k else 0 := by
  apply Nat.eq_of_testBit_eq
  intro i
  rw [Nat.testBit_xor, Nat.testBit_mod_two_pow, Nat.testBit_mod_two_pow, apply_ite (Nat.testBit · i),
    Nat.one_shiftLeft, Nat.testBit_two_pow, Nat.zero_testBit]
  rcases Nat.lt_trichotomy i k with hi | rfl | hi
  · simp [hi, hi.ne', Nat.lt_succ_of_lt hi]
  · simp
  · simp [hi.not_gt, hi.ne, show ¬ i < k + 1 by omega]

/-- Two values of one degree cancel their highest bit. -/
theorem xor_lt_of_deg_eq {x y : Nat} (hx : x ≠ 0) (hy : y ≠ 0) (h : deg y = deg x) : x ^^^ y < 2 ^ deg x := by
  refine Nat.lt_pow_two_of_testBit _ fun i hi => ?_
  rw [Nat.testBit_xor]
  rcases hi.eq_or_lt with rfl | hi
  · rw [deg, Nat.testBit_log2 hx, ← deg, ← h, deg, Nat.testBit_log2 hy, Bool.xor_self]
  · rw [Nat.testBit_lt_two_pow ((Nat.log2_lt hx).mp hi), Nat.testBit_lt_two_pow ((Nat.log2_lt hy).mp (h.trans_lt hi)),
      Bool.xor_self]

/-- A shift by k raises the degree by k (R9). -/
theorem deg_shiftLeft {m : Nat} (hm : m ≠ 0) (k : Nat) : deg (m <<< k) = deg m + k := by
  have hmk : m <<< k ≠ 0 := by simpa [Nat.shiftLeft_eq] using hm
  unfold deg
  rw [Nat.log2_eq_iff hmk, Nat.shiftLeft_eq, Nat.add_right_comm, Nat.pow_add, Nat.pow_add _ _ k]
  exact ⟨Nat.mul_le_mul_right _ (Nat.log2_self_le hm),
    Nat.mul_lt_mul_of_pos_right Nat.lt_log2_self (Nat.two_pow_pos k)⟩

/-- A division step lowers the degree (R9). -/
theorem pmod_step_lt {x m : Nat} (hx : x ≠ 0) (hm : m ≠ 0) (h : deg m ≤ deg x) :
    x ^^^ m <<< (deg x - deg m) < 2 ^ deg x := by
  refine xor_lt_of_deg_eq hx ?_ ?_
  · simpa [Nat.shiftLeft_eq] using hm
  · rw [deg_shiftLeft hm]
    exact Nat.add_sub_cancel' h

/-- The division loop ends below the degree of its modulus (R9). -/
theorem pmodLoop_lt {m : Nat} (hm : m ≠ 0) (fuel x : Nat) (hx : x < 2 ^ fuel) : pmodLoop m fuel x < 2 ^ deg m := by
  induction fuel generalizing x with
  | zero =>
    obtain rfl : x = 0 := by omega
    exact Nat.two_pow_pos _
  | succ fuel ih =>
    rw [pmodLoop]
    split
    case isTrue hstep =>
      obtain ⟨hx0, hdeg⟩ := hstep
      have hfuel : deg x < fuel + 1 := (Nat.log2_lt hx0).mpr hx
      exact ih _ ((pmod_step_lt hx0 hm hdeg).trans_le (Nat.pow_le_pow_right (by decide) (by omega)))
    case isFalse hdone =>
      by_cases hx0 : x = 0
      · exact hx0 ▸ Nat.two_pow_pos _
      · exact (Nat.log2_lt hx0).mp (Nat.lt_of_not_le fun hdeg => hdone ⟨hx0, hdeg⟩)

/-- A remainder has a lower degree than the modulus (R9). -/
theorem pmod_lt {m : Nat} (hm : m ≠ 0) (x : Nat) : pmod x m < 2 ^ deg m :=
  pmodLoop_lt hm _ _ Nat.lt_log2_self

/-! ### Polynomials act on elements

One shift-and-reduce multiplies an element by x. A polynomial y over GF(2) so acts on the elements, and gfmul is the action of
its second operand on its first. The laws of the product are those of the action. -/

/-- The polynomial y, a bitmask as in R9, times the element v: the XOR over every i with `y[i] = 1` of v shifted and reduced
i times. -/
def applyPoly (mod : Modulus) (n : Nat) (y : Nat) (v : Coef) : Coef :=
  if y = 0 then 0
  else (if y.testBit 0 then v else 0) ^^^ applyPoly mod n (y / 2) (shiftReduce mod n v)
termination_by y

section

variable (mod : Modulus) (n : Nat)

@[simp] theorem applyPoly_zero (v : Coef) : applyPoly mod n 0 v = 0 := by
  rw [applyPoly, if_pos rfl]

/-- The constant term, and x times the rest, for the polynomial 0 too. -/
theorem applyPoly_div_two (y : Nat) (v : Coef) :
    applyPoly mod n y v = (if y.testBit 0 then v else 0) ^^^ applyPoly mod n (y / 2) (shiftReduce mod n v) := by
  by_cases h : y = 0
  · simp [h]
  · rw [applyPoly, if_neg h]

/-- The polynomial 1 keeps every element. -/
@[simp] theorem applyPoly_one (v : Coef) : applyPoly mod n 1 v = v := by
  rw [applyPoly_div_two]
  simp

/-- One shift-and-reduce is linear (R133). -/
theorem shiftReduce_xor (u v : Coef) :
    shiftReduce mod n (u ^^^ v) = shiftReduce mod n u ^^^ shiftReduce mod n v := by
  apply BitVec.eq_of_getLsbD_eq
  intro i hi
  simp only [BitVec.getLsbD_xor, shiftReduce_getLsbD mod n _ i hi]
  simp only [Bool.bne_eq_xor, Bool.and_xor_distrib_left, Bool.and_xor_distrib_right, Bool.xor_assoc,
    Bool.xor_left_comm]

/-- The action is linear in the polynomial. -/
theorem applyPoly_xor_left (y z : Nat) (v : Coef) :
    applyPoly mod n (y ^^^ z) v = applyPoly mod n y v ^^^ applyPoly mod n z v := by
  induction y using Nat.div2Induction generalizing z v with
  | ind y ih =>
    by_cases h : y = 0
    · simp [h]
    rw [applyPoly_div_two, Nat.xor_div_two, ih (Nat.pos_of_ne_zero h), applyPoly_div_two mod n y,
      applyPoly_div_two mod n z, Nat.testBit_xor]
    have constant : (if y.testBit 0 ^^ z.testBit 0 then v else 0)
        = (if y.testBit 0 then v else 0) ^^^ (if z.testBit 0 then v else 0) := by
      cases y.testBit 0 <;> cases z.testBit 0 <;> simp
    rw [constant]
    ac_rfl

/-- A linear function that commutes with multiplication by x commutes with every polynomial. -/
theorem map_applyPoly {f : Coef → Coef} (linear : ∀ u v, f (u ^^^ v) = f u ^^^ f v)
    (comm : ∀ v, f (shiftReduce mod n v) = shiftReduce mod n (f v)) (y : Nat) (v : Coef) :
    f (applyPoly mod n y v) = applyPoly mod n y (f v) := by
  have hzero : f 0 = 0 := by simpa using linear 0 0
  induction y using Nat.div2Induction generalizing v with
  | ind y ih =>
    by_cases h : y = 0
    · rw [h, applyPoly_zero, applyPoly_zero, hzero]
    rw [applyPoly_div_two, linear, ih (Nat.pos_of_ne_zero h), comm, applyPoly_div_two mod n y (f v), apply_ite f,
      hzero]

/-- Multiplication by x commutes with every polynomial. -/
theorem shiftReduce_applyPoly (y : Nat) (v : Coef) :
    shiftReduce mod n (applyPoly mod n y v) = applyPoly mod n y (shiftReduce mod n v) :=
  map_applyPoly mod n (shiftReduce_xor mod n) (fun _ => rfl) y v

/-- The action is linear in the element. -/
theorem applyPoly_xor_right (y : Nat) (u v : Coef) :
    applyPoly mod n y (u ^^^ v) = applyPoly mod n y u ^^^ applyPoly mod n y v := by
  induction y using Nat.div2Induction generalizing u v with
  | ind y ih =>
    by_cases h : y = 0
    · simp [h]
    rw [applyPoly_div_two, shiftReduce_xor, ih (Nat.pos_of_ne_zero h), applyPoly_div_two mod n y u,
      applyPoly_div_two mod n y v]
    have constant : (if y.testBit 0 then u ^^^ v else 0)
        = (if y.testBit 0 then u else 0) ^^^ (if y.testBit 0 then v else 0) := by
      cases y.testBit 0 <;> simp
    rw [constant]
    ac_rfl

/-- Polynomials commute. -/
theorem applyPoly_comm (y z : Nat) (v : Coef) :
    applyPoly mod n y (applyPoly mod n z v) = applyPoly mod n z (applyPoly mod n y v) :=
  map_applyPoly mod n (applyPoly_xor_right mod n y) (fun v => (shiftReduce_applyPoly mod n y v).symm) z v

/-- The k-fold shift of a polynomial acts k shift-and-reduces more. -/
theorem applyPoly_shiftLeft (y k : Nat) (v : Coef) :
    applyPoly mod n (y <<< k) v = (shiftReduce mod n)^[k] (applyPoly mod n y v) := by
  induction k with
  | zero => rfl
  | succ k ih =>
    rw [Function.iterate_succ_apply', ← ih, shiftReduce_applyPoly, Nat.shiftLeft_succ, applyPoly_div_two]
    simp

/-- The action of a carry-less product is the action of both factors (R9). -/
theorem applyPoly_clmulBits (a b bits : Nat) (v : Coef) :
    applyPoly mod n (clmulBits a b bits) v = applyPoly mod n (b % 2 ^ bits) (applyPoly mod n a v) := by
  induction bits with
  | zero => simp [clmulBits, Nat.mod_one]
  | succ bits ih =>
    rw [clmulBits, applyPoly_xor_left, ih, mod_two_pow_succ_eq_xor, applyPoly_xor_left]
    split
    · rw [applyPoly_shiftLeft, applyPoly_shiftLeft, applyPoly_one]
    · simp

/-- The action of a product with an 8-bit second factor (R9). -/
theorem applyPoly_clmul (a : Nat) {b : Nat} (hb : b < 2 ^ 8) (v : Coef) :
    applyPoly mod n (clmul a b) v = applyPoly mod n b (applyPoly mod n a v) := by
  rw [clmul, applyPoly_clmulBits, Nat.mod_eq_of_lt hb]

/-! ### The product is the action of the second operand -/

/-- The iterations add the multiplier, as a polynomial, times the multiplicand (R130). -/
theorem mulIteration_iterate_product (j : Nat) (k : Work) (h : k.multiplier.toNat < 2 ^ j) :
    ((mulIteration mod n)^[j] k).product = k.product ^^^ applyPoly mod n k.multiplier.toNat k.multiplicand := by
  induction j generalizing k with
  | zero =>
    have hzero : k.multiplier.toNat = 0 := by omega
    simp [hzero]
  | succ j ih =>
    have hshift : (mulIteration mod n k).multiplier.toNat = k.multiplier.toNat / 2 := by
      simp [mulIteration, Nat.shiftRight_one]
    rw [Function.iterate_succ_apply, ih _ (by omega), hshift, applyPoly_div_two mod n k.multiplier.toNat]
    simp only [mulIteration, BitVec.getLsbD]
    split <;> simp [BitVec.xor_assoc]

/-- gfmul is the second operand's action on the first, both masked (R130, R131). -/
theorem gfmul_eq_applyPoly (a b : Coef) :
    gfmul a b mod n = applyPoly mod n (b &&& mask 8 n).toNat (a &&& mask 8 n) := by
  rw [earlyExitKeepsProduct, mulIteration_iterate_product mod n n _ (and_mask_toNat_lt b n)]
  exact BitVec.zero_xor

/-! ### The field's modulus -/

/-- The modulus that products are reduced by: x^n and the low n bits of MOD (R133, R135). -/
def fieldModulus : Nat := 1 <<< n ||| mod.toNat % 2 ^ n

theorem fieldModulus_testBit (i : Nat) :
    (fieldModulus mod n).testBit i = (decide (i = n) || (decide (i < n) && mod.getLsbD i)) := by
  rw [fieldModulus, Nat.one_shiftLeft, Nat.testBit_or, Nat.testBit_two_pow, Nat.testBit_mod_two_pow]
  simp [eq_comm, BitVec.getLsbD]

theorem fieldModulus_eq_add : fieldModulus mod n = 2 ^ n + mod.toNat % 2 ^ n := by
  have := Nat.two_pow_add_eq_or_of_lt (Nat.mod_lt mod.toNat (Nat.two_pow_pos n)) 1
  rw [fieldModulus, Nat.one_shiftLeft]
  simpa using this.symm

theorem deg_fieldModulus : deg (fieldModulus mod n) = n := by
  have hlow := Nat.mod_lt mod.toNat (Nat.two_pow_pos n)
  have hpos := Nat.two_pow_pos n
  rw [fieldModulus_eq_add]
  exact (Nat.log2_eq_iff (by omega)).mpr (by omega)

theorem fieldModulus_ne_zero : fieldModulus mod n ≠ 0 := by
  rw [fieldModulus_eq_add]
  exact (Nat.add_pos_left (Nat.two_pow_pos n) _).ne'

end

/-! ### The action on 1 is the remainder by the modulus (R135) -/

section

variable {mod : Modulus} {n : Nat} (hn : 1 ≤ n) (hn8 : n ≤ 8)

include hn hn8

/-- One shift-and-reduce of a value below 2^n shifts it and subtracts the modulus if x^n came up (R133). -/
theorem shiftReduce_toNat {v : Coef} (hv : v.toNat < 2 ^ n) :
    (shiftReduce mod n v).toNat = v.toNat <<< 1 ^^^ if v.toNat.testBit (n - 1) then fieldModulus mod n else 0 := by
  apply Nat.eq_of_testBit_eq
  intro i
  have bit : (shiftReduce mod n v).toNat.testBit i = (decide (i < n) &&
      ((decide (0 < i) && v.toNat.testBit (i - 1)) != (v.toNat.testBit (n - 1) && mod.getLsbD i))) := by
    by_cases hi : i < 8
    · exact shiftReduce_getLsbD mod n v i hi
    · rw [decide_eq_false (by omega), Bool.false_and]
      exact BitVec.getLsbD_of_ge _ _ (by omega)
  rw [bit, Nat.testBit_xor, Nat.testBit_shiftLeft, apply_ite (Nat.testBit · i), fieldModulus_testBit]
  rcases Nat.lt_trichotomy i n with hi | rfl | hi
  · simp [hi, hi.ne, Nat.succ_le_iff]
  · simp [hn]
  · have hv' : v.toNat.testBit (i - 1) = false :=
      Nat.testBit_lt_two_pow (hv.trans_le (Nat.pow_le_pow_right (by decide) (by omega)))
    simp [hi.not_gt, hi.ne', hv']

/-- Half a polynomial that is its own action on 1 gives the whole: the action on 1 is the remainder by the modulus. -/
theorem applyPoly_one_toNat_of_half {y : Nat} (hy : y / 2 < 2 ^ n)
    (half : (applyPoly mod n (y / 2) 1).toNat = y / 2) :
    (applyPoly mod n y 1).toNat = y ^^^ if y.testBit n then fieldModulus mod n else 0 := by
  have top : (y / 2).testBit (n - 1) = y.testBit n := by
    rw [← Nat.testBit_add_one, Nat.sub_add_cancel hn]
  have constant : (if y.testBit 0 then (1 : Coef) else 0).toNat = if y.testBit 0 then 1 else 0 := by
    split <;> rfl
  rw [applyPoly_div_two, ← shiftReduce_applyPoly, BitVec.toNat_xor,
    shiftReduce_toNat hn hn8 (half.symm ▸ hy), half, top, ← Nat.xor_assoc, constant,
    testBit_zero_xor_shiftLeft]

/-- A polynomial of degree below n acts on 1 as itself (R136). -/
theorem applyPoly_one_toNat {y : Nat} (hy : y < 2 ^ n) :
    (applyPoly mod n y 1).toNat = y := by
  induction y using Nat.div2Induction with
  | ind y ih =>
    by_cases h : y = 0
    · simp [h]
    rw [applyPoly_one_toNat_of_half hn hn8 (by omega) (ih (by omega) (by omega)), Nat.testBit_lt_two_pow hy]
    simp

/-- The modulus acts on 1 as 0. -/
theorem applyPoly_fieldModulus : applyPoly mod n (fieldModulus mod n) 1 = 0 := by
  have hlow := Nat.mod_lt mod.toNat (Nat.two_pow_pos n)
  have half : fieldModulus mod n / 2 < 2 ^ n := by rw [fieldModulus_eq_add]; omega
  have top : (fieldModulus mod n).testBit n = true := by simp [fieldModulus_testBit]
  apply BitVec.eq_of_toNat_eq
  rw [applyPoly_one_toNat_of_half hn hn8 half (applyPoly_one_toNat hn hn8 half), if_pos top, Nat.xor_self]
  rfl

/-- A multiple of the modulus by a power of x acts on 1 as 0. -/
theorem applyPoly_fieldModulus_shiftLeft (k : Nat) :
    applyPoly mod n (fieldModulus mod n <<< k) 1 = 0 := by
  rw [applyPoly_shiftLeft, applyPoly_fieldModulus hn hn8]
  exact Function.iterate_fixed (shiftReduce_zero mod n) k

/-- The division loop keeps the action on 1: it subtracts multiples of the modulus (R9). -/
theorem applyPoly_pmodLoop (fuel x : Nat) :
    applyPoly mod n (pmodLoop (fieldModulus mod n) fuel x) 1 = applyPoly mod n x 1 := by
  induction fuel generalizing x with
  | zero => rfl
  | succ fuel ih =>
    rw [pmodLoop]
    split
    · rw [ih, applyPoly_xor_left, applyPoly_fieldModulus_shiftLeft hn hn8]
      simp
    · rfl

/-- The action on 1 is the remainder by the modulus (R9, R135). -/
theorem applyPoly_one_toNat_eq_pmod (x : Nat) :
    (applyPoly mod n x 1).toNat = pmod x (fieldModulus mod n) := by
  have hlt := pmod_lt (fieldModulus_ne_zero mod n) x
  rw [deg_fieldModulus] at hlt
  rw [← applyPoly_one_toNat hn hn8 hlt, pmod, applyPoly_pmodLoop hn hn8]

/-- The product is the action of both masked operands on 1. -/
theorem gfmul_eq_applyPoly_one (a b : Coef) :
    gfmul a b mod n = applyPoly mod n (b &&& mask 8 n).toNat (applyPoly mod n (a &&& mask 8 n).toNat 1) := by
  rw [gfmul_eq_applyPoly]
  congr 1
  exact BitVec.eq_of_toNat_eq (applyPoly_one_toNat hn hn8 (and_mask_toNat_lt a n)).symm

end

/-- A modulus of degree exactly n is its own field modulus (R135). -/
theorem fieldModulus_of_deg {mod : Modulus} {n : Nat} (hn : 1 ≤ n) (h : deg mod.toNat = n) :
    fieldModulus mod n = mod.toNat := by
  have hmod : mod.toNat ≠ 0 := fun h0 => by simp [deg, h0] at h; omega
  obtain ⟨hlo, hhi⟩ := (Nat.log2_eq_iff hmod).mp h
  rw [fieldModulus_eq_add, Nat.mod_eq_sub_mod hlo, Nat.mod_eq_of_lt (by omega)]
  omega

/-- Settles O45: the product of the operands acts on 1 as one operand after the other, and what a polynomial does to 1 is its
remainder. -/
theorem gfmulClosedForm : Obligations.GfmulClosedForm := by
  unfold Obligations.GfmulClosedForm
  intro a b mod n hn hn8
  refine ⟨?_, fieldModulus_of_deg hn⟩
  have hb : b.toNat % 2 ^ n < 2 ^ 8 := (Nat.mod_le _ _).trans_lt b.isLt
  rw [gfmul_eq_applyPoly_one hn hn8, and_mask_toNat, and_mask_toNat, ← applyPoly_clmul mod n _ hb,
    applyPoly_one_toNat_eq_pmod hn hn8]
  rfl

/-! ### The algebraic laws (R136) -/

section

variable {mod : Modulus} {n : Nat}

/-- Commutativity: polynomials commute. -/
theorem gfmul_comm (hn : 1 ≤ n) (hn8 : n ≤ 8) (a b : Coef) : gfmul a b mod n = gfmul b a mod n := by
  rw [gfmul_eq_applyPoly_one hn hn8, applyPoly_comm, ← gfmul_eq_applyPoly_one hn hn8]

/-- A product of a product: the second operand's action on the inner one, which is already below 2^n. -/
theorem gfmul_gfmul (x y z : Coef) :
    gfmul (gfmul x y mod n) z mod n = applyPoly mod n (z &&& mask 8 n).toNat (gfmul x y mod n) := by
  rw [gfmul_eq_applyPoly _ _ (gfmul x y mod n), and_mask_of_lt (gfmul_toNat_lt x y mod n)]

/-- The outer operands of two products can be exchanged: polynomials commute. -/
theorem gfmul_right_comm (x y z : Coef) :
    gfmul (gfmul x y mod n) z mod n = gfmul (gfmul x z mod n) y mod n := by
  rw [gfmul_gfmul, gfmul_gfmul, gfmul_eq_applyPoly, gfmul_eq_applyPoly, applyPoly_comm]

/-- Associativity, for unreduced operands too. -/
theorem gfmul_assoc (hn : 1 ≤ n) (hn8 : n ≤ 8) (x y z : Coef) :
    gfmul (gfmul x y mod n) z mod n = gfmul x (gfmul y z mod n) mod n := by
  rw [gfmul_comm hn hn8 x y, gfmul_right_comm, gfmul_comm hn hn8 x]

/-- Distributivity: the action is linear in the polynomial. -/
theorem gfmul_xor (x y z : Coef) : gfmul x (y ^^^ z) mod n = gfmul x y mod n ^^^ gfmul x z mod n := by
  have hmask : (y ^^^ z) &&& mask 8 n = (y &&& mask 8 n) ^^^ (z &&& mask 8 n) := by
    apply BitVec.eq_of_toNat_eq
    simp only [and_mask_toNat, BitVec.toNat_xor, Nat.xor_mod_two_pow]
  simp only [gfmul_eq_applyPoly, hmask, BitVec.toNat_xor, applyPoly_xor_left]

/-- 1 is the identity up to masking: the polynomial 1 keeps every element. -/
theorem gfmul_one (hn : 1 ≤ n) (a : Coef) : gfmul a 1 mod n = a &&& mask 8 n := by
  have hone : ((1 : Coef) &&& mask 8 n).toNat = 1 := by
    rw [and_mask_toNat]
    exact Nat.mod_eq_of_lt (Nat.one_lt_two_pow (by omega))
  rw [gfmul_eq_applyPoly, hone, applyPoly_one]

/-- An operand whose low n bits are 0 has only the product 0 (R173). -/
theorem gfmul_of_mod_eq_zero (hn : 1 ≤ n) (hn8 : n ≤ 8) {p : Coef} (h : p.toNat % 2 ^ n = 0) (c : Coef) :
    gfmul p c mod n = 0 := by
  have hmask : p &&& mask 8 n = 0 := BitVec.eq_of_toNat_eq ((and_mask_toNat p n).trans h)
  rw [← gfmul_and_mask, hmask, gfmul_comm hn hn8, gfmul_zero]

end

/-- Settles O46: polynomials commute. -/
theorem gfmulCommutative : Obligations.GfmulCommutative := by
  unfold Obligations.GfmulCommutative
  intro a b mod n hn hn8
  exact gfmul_comm hn hn8 a b

/-- Settles O47: the polynomial 1 keeps the masked operand. -/
theorem gfmulZeroAndOne : Obligations.GfmulZeroAndOne := by
  unfold Obligations.GfmulZeroAndOne
  intro a mod n hn _
  exact ⟨gfmul_zero a mod n, by rw [gfmul_one hn, and_mask_toNat]⟩

/-- Settles O48: both laws hold for unreduced values too. -/
theorem gfmulRingLaws : Obligations.GfmulRingLaws := by
  unfold Obligations.GfmulRingLaws
  intro x y z mod n hn hn8 _ _ _
  exact ⟨gfmul_assoc hn hn8 x y z, gfmul_xor x y z⟩

/-! ### Inverses -/

/-- Settles O52: of two inverses each is the product of itself, the operand and the other. -/
theorem inverseIsUnique : Obligations.InverseIsUnique := by
  unfold Obligations.InverseIsUnique
  rintro p c d mod n hn hn8 ⟨-, hc, pc⟩ ⟨-, hd, pd⟩
  calc
    c = gfmul c 1 mod n := by rw [gfmul_one hn, and_mask_of_lt hc]
    _ = gfmul c (gfmul p d mod n) mod n := by rw [pd]
    _ = gfmul (gfmul p c mod n) d mod n := by rw [← gfmul_assoc hn hn8, gfmul_comm hn hn8 c]
    _ = gfmul d 1 mod n := by rw [pc, gfmul_comm hn hn8]
    _ = d := by rw [gfmul_one hn, and_mask_of_lt hd]

/-- Settles O53: what the search found would have product 1 with the operand, whose products are 0. -/
theorem noInverseOfZero : Obligations.NoInverseOfZero := by
  unfold Obligations.NoInverseOfZero
  intro p mod n hn hn8 hp
  refine Option.eq_none_iff_forall_ne_some.mpr fun c hc => ?_
  obtain ⟨-, -, hone⟩ := isInverse_of_invSearch hc
  rw [gfmul_of_mod_eq_zero hn hn8 hp] at hone
  exact absurd hone (by decide)

/-- Settles O30: what INV writes is an inverse, whatever the search order, and MUL finds the operand where it was. -/
theorem invThenMulGivesOne : Obligations.InvThenMulGivesOne := by
  unfold Obligations.InvThenMulGivesOne
  intro s rd ra rx d hne ready hd
  obtain ⟨c, hc⟩ := invSearch_of_isInverse hd
  obtain ⟨-, -, hone⟩ := isInverse_of_invSearch hc
  refine ⟨_, exec_inv_found rd ready hc, ?_⟩
  obtain ⟨ha, hmod, hchar⟩ := ready
  have kept := State.setElem_elem_other s rd ra ⟨c, (s.elem ra).mod, (s.elem ra).char, true⟩ hne.symm
  rw [exec_mul_ready rx, State.setElem_elem_same, kept, hone]
  rw [MulReady, State.setElem_elem_same, kept]
  exact ⟨ha, rfl, rfl, hmod, rfl, hchar⟩

end Sys2Proof.Machine

/-! ## Complements among the comparisons (43_compare.md) -/

namespace Sys2Proof.Machine

open Sys2Proof Sys2Proof.Claims

/-- Settles O32: each command answers its own relation, so the complements are those of the relations. -/
theorem comparisonComplements : Obligations.ComparisonComplements := by
  unfold Obligations.ComparisonComplements
  intro s ra rb ha hb
  have run (cc : Cond) := exec_cmpInstr_valid cc ha hb
  have mirrored := exec_cmpInstr_valid .lt hb ha
  have le_gt (x y : Coef) : relationHolds .le x y = !relationHolds .gt x y := BitVec.ule_eq_not_ult x y
  have ge_lt (x y : Coef) : relationHolds .ge x y = !relationHolds .lt x y := BitVec.ule_eq_not_ult y x
  exact ⟨_, _, _, _, _, _, _, run .eq, run .ne, run .lt, run .gt, run .le, run .ge, mirrored, rfl, le_gt _ _,
    ge_lt _ _, rfl⟩

end Sys2Proof.Machine

/-! ## What stops the machine (20_memory.md) -/

namespace Sys2Proof.Machine

open Sys2Proof Sys2Proof.Claims

/-- An access that has a step is admitted (R53). -/
theorem admitted_of_step {s t : State} {a : Access} (turn : s.nextTurn = .host a) (h : step s = .next t) :
    a.Admitted := by
  rw [step_of_host turn] at h
  obtain ⟨off, hplace, hin, hm, -⟩ := hostTurn_admitted h
  simp only [Access.Admitted, hplace, true_and]
  exact ⟨Nat.le_add_right _ _, Nat.add_lt_add_left hin _, by rwa [Nat.add_sub_cancel_left]⟩

/-- Settles O17: a turn with no unadmitted access is safe, and an access that has a step is admitted. -/
theorem stopsOnlyOnUnadmittedAccess : Obligations.StopsOnlyOnUnadmittedAccess := by
  unfold Obligations.StopsOnlyOnUnadmittedAccess
  intro s
  constructor
  · intro stops
    by_contra noAccess
    have safe : s.nextTurn.Safe := fun a turn => by_contra fun unadmitted => noAccess ⟨a, turn, unadmitted⟩
    obtain ⟨t, h⟩ := exists_step_of_safe safe
    exact stops t h
  · rintro ⟨a, turn, unadmitted⟩ t h
    exact unadmitted (admitted_of_step turn h)

end Sys2Proof.Machine

/-! ## The worked encodings (30_encoding.md, section 5) -/

namespace Sys2Proof

/-- Settles O5: every line of the table is a closed fact. -/
theorem workedEncodings : Obligations.WorkedEncodings := by
  unfold Obligations.WorkedEncodings
  decide

end Sys2Proof
